-- ==== Sys2Proof/Word.lean ====
section
/-! DEFINITION. The widths of the E20 core (spec/00_scope.md R8, R10): the 16-bit word, the 13-bit word address,
the 3-bit register number and the 7-bit immediate field. -/

namespace Sys2Proof

/-- A register value, a memory word or an instruction word (R10). -/
abbrev Word := BitVec 16

/-- A word address, 0 to 8191 (R18, R31): the program counter, an effective address, a jump target. -/
abbrev Addr := BitVec 13

/-- A register number, 0 to 7: the value of a 3-bit instruction field (R14). -/
abbrev RegIdx := BitVec 3

/-- The immediate field of format I, not yet extended (R52). -/
abbrev Imm7 := BitVec 7

/-- MEMSIZE (R8). -/
abbrev memSize : Nat := 8192

/-- The last valid memory address, 8191 (R12, R92). -/
abbrev lastAddress : Addr := 8191#13

/-- The hardwired-zero register (R15). -/
abbrev zeroRegister : RegIdx := 0#3

/-- The link register (R16). -/
abbrev linkRegister : RegIdx := 7#3

end Sys2Proof
end

