-- ==== Sys2Proof/Config.lean ====
section
/-! DEFINITION. What is fixed at the launch of a run (spec/00_scope.md R8, R9): the cache descriptors and the parameters
the spec introduces where its source leaves a point open, each with every value the spec describes. No value of the
machine is left free by the spec, so no opaque constant stands here. The values a reset takes are in
Sys2Proof/Machine/Launch.lean. -/

namespace Sys2Proof

/-- WRITE_POLICY (R9, D11): what a store does to a row that already holds its tag (R73, R74). -/
inductive WritePolicy where
  | faithfulDuplicate
  | insertOnMiss
  deriving DecidableEq, Repr

/-- LOOKUP_DUP (R9, D12): which occurrences a lookup hit moves to the tail (R67). -/
inductive LookupDup where
  | firstOccurrence
  | allOccurrences
  deriving DecidableEq, Repr

/-- R_ROLE_MAP (R9, D3): the field roles of slt and jr (R115). -/
inductive RoleMap where
  | docLiteral
  | e20Uniform
  deriving DecidableEq, Repr

/-- IMM_OPCODE_MAP (R9, D5): which immediate-class opcode selects which operation (R56). -/
inductive ImmOpcodeMap where
  | published
  | positional
  deriving DecidableEq, Repr

/-- SLTI_COMPARE (R9, D7): how slti compares (R116). -/
inductive SltiCompare where
  | signed16
  | zextRegVsSextImm
  | unsigned16
  deriving DecidableEq, Repr

/-- SLT_COMPARE (R9, D8): how slt compares (R109). -/
inductive SltCompare where
  | unsigned16
  | signed16
  deriving DecidableEq, Repr

/-- The parameters of R9 that later steps consult; PC_RESET, REG_RESET and MEM_INIT are used once, at the launch. -/
structure Params where
  writePolicy  : WritePolicy
  lookupDup    : LookupDup
  roleMap      : RoleMap
  immOpcodeMap : ImmOpcodeMap
  sltiCompare  : SltiCompare
  sltCompare   : SltCompare
  deriving DecidableEq, Repr

/-- One cache descriptor (R8, R63), in memory words (R65). The display name is the constant L1 or L2 (`CacheId`). -/
structure Descriptor where
  size      : Nat
  assoc     : Nat
  blockSize : Nat
  deriving DecidableEq, Repr

/-- `rowCount = size / (assoc * blockSize)` (R63). -/
def Descriptor.rowCount (d : Descriptor) : Nat := d.size / (d.assoc * d.blockSize)

/-- The launch arguments besides the program image (R8, R9): HAS_L2 is `l2` being some descriptor. -/
structure LaunchConfig where
  l1       : Descriptor
  l2       : Option Descriptor
  params   : Params
  pcReset  : Addr
  regReset : Vector Word 8
  deriving DecidableEq, Repr

end Sys2Proof
end

