-- ==== Sys2Proof/Syntax.lean ====
section
/-! DEFINITION. The instructions: one constructor per row of spec/opcode_table.json, in the table's order. The fields
carry the spec's positional names ra = bits 12:10, rb = bits 9:7, rc = bits 6:4 (spec/30_encoding.md R51). Unused bits
are kept as fields, so that no bit of a word is lost, and no meaning reads them (R59). -/

namespace Sys2Proof

inductive Instr where
  | add  (ra rb rc : RegIdx)
  | sub  (ra rb rc : RegIdx)
  | or   (ra rb rc : RegIdx)
  | and  (ra rb rc : RegIdx)
  | slt  (ra rb rc : RegIdx)
  | jr   (ra rb rc : RegIdx)
  | addi (ra rb : RegIdx) (imm : Imm7)
  | j    (target : Addr)
  | jal  (target : Addr)
  | lw   (ra rb : RegIdx) (imm : Imm7)
  | sw   (ra rb : RegIdx) (imm : Imm7)
  | jeq  (ra rb : RegIdx) (imm : Imm7)
  | slti (ra rb : RegIdx) (imm : Imm7)
  /-- Reserved function code 0101; `ignored` is bits 12:4 (R111). -/
  | reserved0101 (ignored : BitVec 9)
  /-- Reserved function codes 0110 and 0111; `x` is bit 0. -/
  | reserved011x (ignored : BitVec 9) (x : BitVec 1)
  /-- Reserved function code 1001. -/
  | reserved1001 (ignored : BitVec 9)
  /-- Reserved function codes 1010 and 1011; `x` is bit 0. -/
  | reserved101x (ignored : BitVec 9) (x : BitVec 1)
  /-- Reserved function codes 1100 to 1111; `x` is bits 1:0. -/
  | reserved11xx (ignored : BitVec 9) (x : BitVec 2)
  deriving DecidableEq, Repr

/-- The mnemonic of an instruction's row in spec/opcode_table.json. -/
def Instr.mnemonic : Instr → String
  | .add _ _ _ => "add"
  | .sub _ _ _ => "sub"
  | .or _ _ _ => "or"
  | .and _ _ _ => "and"
  | .slt _ _ _ => "slt"
  | .jr _ _ _ => "jr"
  | .addi _ _ _ => "addi"
  | .j _ => "j"
  | .jal _ => "jal"
  | .lw _ _ _ => "lw"
  | .sw _ _ _ => "sw"
  | .jeq _ _ _ => "jeq"
  | .slti _ _ _ => "slti"
  | .reserved0101 _ => "reserved.0101"
  | .reserved011x _ _ => "reserved.011x"
  | .reserved1001 _ => "reserved.1001"
  | .reserved101x _ _ => "reserved.101x"
  | .reserved11xx _ _ => "reserved.11xx"

end Sys2Proof
end

