-- ==== Sys2Proof/Decode.lean ====
section
/-! DEFINITION. From words to instructions and back (spec/30_encoding.md). Decoding is total: every word has exactly one
of the table's meanings and there is no illegal word (R57, R60), so there is nothing to reject. FUNC_MAP is at its default
(R55; DESIGN CHOICE, log 4); the field positions are those of R49 and R50 (log 6). -/

namespace Sys2Proof

/-! ### Fields (R47 to R53) -/

/-- `w[15:13]`, the primary opcode (R47). -/
def opField (w : Word) : BitVec 3 := w.extractLsb' 13 3
/-- `w[12:10]` (R49, R50). -/
def raField (w : Word) : RegIdx := w.extractLsb' 10 3
/-- `w[9:7]` (R49, R50). -/
def rbField (w : Word) : RegIdx := w.extractLsb' 7 3
/-- `w[6:4]` (R49). -/
def rcField (w : Word) : RegIdx := w.extractLsb' 4 3
/-- `w[3:0]`, the function code (R49). -/
def funcField (w : Word) : BitVec 4 := w.extractLsb' 0 4
/-- `w[6:0]`, the immediate (R50, R52). -/
def immField (w : Word) : Imm7 := w.extractLsb' 0 7
/-- `w[12:0]`, the jump target (R48, R53). -/
def targetField (w : Word) : Addr := w.extractLsb' 0 13
/-- `w[12:4]`, ignored by the reserved function codes (R111). -/
def ignoredField (w : Word) : BitVec 9 := w.extractLsb' 4 9

/-! ### Code tables -/

/-- The operations of format R. -/
inductive RegOp where
  | add | sub | or | and | slt | jr
  deriving DecidableEq, Repr

/-- The operations of format I. -/
inductive ImmOp where
  | addi | lw | sw | jeq | slti
  deriving DecidableEq, Repr

/-- FUNC_MAP at its default (R55, D4). -/
def funcCode : RegOp → BitVec 4
  | .add => 0b0000#4
  | .sub => 0b0001#4
  | .or  => 0b0010#4
  | .and => 0b0011#4
  | .slt => 0b0100#4
  | .jr  => 0b1000#4

/-- IMM_OPCODE_MAP (R56): the published pairing is the default, the positional one its alternative. -/
def immOpcode : ImmOpcodeMap → ImmOp → BitVec 3
  | .published, .addi => 0b001#3
  | .published, .lw   => 0b100#3
  | .published, .sw   => 0b101#3
  | .published, .jeq  => 0b110#3
  | .published, .slti => 0b111#3
  | .positional, .slti => 0b100#3
  | .positional, .sw   => 0b101#3
  | .positional, .addi => 0b110#3
  | .positional, .lw   => 0b111#3
  | .positional, .jeq  => 0b001#3

/-- The pairing that spec/opcode_table.json is written for. -/
def tableImmOpcodeMap : ImmOpcodeMap := .published

/-! ### Decoding (R57) -/

/-- The ten function codes FUNC_MAP does not assign (R58, R111), by the table's five rows. -/
def decodeReserved (w : Word) : Instr :=
  if funcField w = 0b0101#4 then .reserved0101 (ignoredField w)
  else if w.extractLsb' 1 3 = 0b011#3 then .reserved011x (ignoredField w) (w.extractLsb' 0 1)
  else if funcField w = 0b1001#4 then .reserved1001 (ignoredField w)
  else if w.extractLsb' 1 3 = 0b101#3 then .reserved101x (ignoredField w) (w.extractLsb' 0 1)
  else .reserved11xx (ignoredField w) (w.extractLsb' 0 2)

/-- Format R, by the function code (R55, R57 step 3). -/
def decodeRegister (w : Word) : Instr :=
  if funcField w = funcCode .add then .add (raField w) (rbField w) (rcField w)
  else if funcField w = funcCode .sub then .sub (raField w) (rbField w) (rcField w)
  else if funcField w = funcCode .or then .or (raField w) (rbField w) (rcField w)
  else if funcField w = funcCode .and then .and (raField w) (rbField w) (rcField w)
  else if funcField w = funcCode .slt then .slt (raField w) (rbField w) (rcField w)
  else if funcField w = funcCode .jr then .jr (raField w) (rbField w) (rcField w)
  else decodeReserved w

/-- Format I, by the primary opcode (R56, R57 step 4). -/
def decodeImmediate (m : ImmOpcodeMap) (w : Word) : Instr :=
  if opField w = immOpcode m .addi then .addi (raField w) (rbField w) (immField w)
  else if opField w = immOpcode m .lw then .lw (raField w) (rbField w) (immField w)
  else if opField w = immOpcode m .sw then .sw (raField w) (rbField w) (immField w)
  else if opField w = immOpcode m .jeq then .jeq (raField w) (rbField w) (immField w)
  else .slti (raField w) (rbField w) (immField w)

/-- The decoder, in the order of R57. -/
def decode (m : ImmOpcodeMap) (w : Word) : Instr :=
  if opField w = 0b010#3 then .j (targetField w)
  else if opField w = 0b011#3 then .jal (targetField w)
  else if opField w = 0b000#3 then decodeRegister w
  else decodeImmediate m w

/-! ### Encoding -/

/-- Format R (R49). -/
def formatR (ra rb rc : RegIdx) (func : BitVec 4) : Word := 0b000#3 ++ ra ++ rb ++ rc ++ func
/-- Format I (R50). -/
def formatI (op : BitVec 3) (ra rb : RegIdx) (imm : Imm7) : Word := op ++ ra ++ rb ++ imm
/-- Format J (R48). -/
def formatJ (op : BitVec 3) (target : Addr) : Word := op ++ target
/-- A reserved function code (R111). -/
def formatReserved (ignored : BitVec 9) (func : BitVec 4) : Word := 0b000#3 ++ ignored ++ func

/-- The word of an instruction: one word each (R46). -/
def encode (m : ImmOpcodeMap) : Instr → Word
  | .add ra rb rc => formatR ra rb rc (funcCode .add)
  | .sub ra rb rc => formatR ra rb rc (funcCode .sub)
  | .or ra rb rc => formatR ra rb rc (funcCode .or)
  | .and ra rb rc => formatR ra rb rc (funcCode .and)
  | .slt ra rb rc => formatR ra rb rc (funcCode .slt)
  | .jr ra rb rc => formatR ra rb rc (funcCode .jr)
  | .addi ra rb imm => formatI (immOpcode m .addi) ra rb imm
  | .j target => formatJ 0b010#3 target
  | .jal target => formatJ 0b011#3 target
  | .lw ra rb imm => formatI (immOpcode m .lw) ra rb imm
  | .sw ra rb imm => formatI (immOpcode m .sw) ra rb imm
  | .jeq ra rb imm => formatI (immOpcode m .jeq) ra rb imm
  | .slti ra rb imm => formatI (immOpcode m .slti) ra rb imm
  | .reserved0101 ignored => formatReserved ignored 0b0101#4
  | .reserved011x ignored x => formatReserved ignored (0b011#3 ++ x)
  | .reserved1001 ignored => formatReserved ignored 0b1001#4
  | .reserved101x ignored x => formatReserved ignored (0b101#3 ++ x)
  | .reserved11xx ignored x => formatReserved ignored (0b11#2 ++ x)

/-! ### The opcode table -/

/-- One row of spec/opcode_table.json: a word belongs to the row iff `word &&& mask = pattern`. -/
structure TableRow where
  mnemonic : String
  pattern  : Word
  mask     : Word
  deriving DecidableEq, Repr

/-- The 18 rows of spec/opcode_table.json, in its order. -/
def opcodeTable : List TableRow :=
  [ ⟨"add", 0x0000, 0xE00F⟩, ⟨"sub", 0x0001, 0xE00F⟩, ⟨"or", 0x0002, 0xE00F⟩, ⟨"and", 0x0003, 0xE00F⟩,
    ⟨"slt", 0x0004, 0xE00F⟩, ⟨"jr", 0x0008, 0xE00F⟩, ⟨"addi", 0x2000, 0xE000⟩, ⟨"j", 0x4000, 0xE000⟩,
    ⟨"jal", 0x6000, 0xE000⟩, ⟨"lw", 0x8000, 0xE000⟩, ⟨"sw", 0xA000, 0xE000⟩, ⟨"jeq", 0xC000, 0xE000⟩,
    ⟨"slti", 0xE000, 0xE000⟩, ⟨"reserved.0101", 0x0005, 0xE00F⟩, ⟨"reserved.011x", 0x0006, 0xE00E⟩,
    ⟨"reserved.1001", 0x0009, 0xE00F⟩, ⟨"reserved.101x", 0x000A, 0xE00E⟩, ⟨"reserved.11xx", 0x000C, 0xE00C⟩ ]

/-- A word fits a row. -/
def TableRow.fits (r : TableRow) (w : Word) : Prop := w &&& r.mask = r.pattern

/-- The instruction the decoder reads from a word numbered as spec/opcode_table.json numbers it: bit 0 is the least
significant bit of the one 16-bit word an instruction is (R46). A row of more than 16 bits does not exist (log 21). -/
def decodeTableWord (nbits w : Nat) : Option Instr :=
  if nbits ≤ 16 then some (decode tableImmOpcodeMap (BitVec.ofNat 16 (w % 2 ^ nbits))) else none

end Sys2Proof
end

