-- ==== Sys2Proof/WellFormed.lean ====
section
/-! DEFINITION. What a launch must satisfy before the machine exists (spec/40_cache.md R63, spec/60_exceptions.md R127,
spec/70_reset_and_hazards.md R147), and the well-formed instructions. -/

namespace Sys2Proof

/-- Every instruction term is well formed: each field has exactly the width of its place in the word, and every
combination of operands is a valid encoding (R57, R60, R103, R122). -/
def Instr.wellFormed : Instr → Bool := fun _ => true

/-- A descriptor is valid iff its three numbers are positive and the size is a multiple of assoc * blockSize (R63). -/
def Descriptor.valid (d : Descriptor) : Bool :=
  decide (1 ≤ d.size) && decide (1 ≤ d.assoc) && decide (1 ≤ d.blockSize) &&
    decide (d.size % (d.assoc * d.blockSize) = 0)

/-- PC_RESET is any value in 0..8190 (R9). -/
def LaunchConfig.pcResetValid (c : LaunchConfig) : Bool := decide (c.pcReset ≠ lastAddress)

/-- REG_RESET is any eight values with register 0 = 0 (R9). -/
def LaunchConfig.regResetValid (c : LaunchConfig) : Bool := decide (c.regReset[0] = 0#16)

/-- A configuration the machine can be built from (R63, R9). -/
def LaunchConfig.valid (c : LaunchConfig) : Bool :=
  c.l1.valid && c.l2.all Descriptor.valid && c.pcResetValid && c.regResetValid

/-- A program image is no longer than the memory (R27, R127). -/
def imageFits (image : List Word) : Bool := decide (image.length ≤ memSize)

end Sys2Proof
end

