-- ==== Sys2Proof/Machine/Launch.lean ====
section
/-! DEFINITION. The launch arguments that `State.reset` takes (spec/70_reset_and_hazards.md R141 to R146), and what a word of
memory outside the program image holds. -/

namespace Sys2Proof.Machine

/-- The spec's defaults of the parameters of R9 (DESIGN CHOICE of the spec, D3, D5, D7, D8, D11, D12; log 3, log 5). -/
def defaultParams : Params where
  writePolicy  := .faithfulDuplicate
  lookupDup    := .firstOccurrence
  roleMap      := .docLiteral
  immOpcodeMap := .published
  sltiCompare  := .signed16
  sltCompare   := .unsigned16

/-- The launch that `State.reset` stands for: L1 = (8,2,2) without L2 (DESIGN CHOICE, log 2), PC_RESET = 0 and REG_RESET
all 0 (R141, R142; DESIGN CHOICE of the spec, D13, D14; log 7). -/
def defaultLaunch : LaunchConfig where
  l1       := { size := 8, assoc := 2, blockSize := 2 }
  l2       := none
  params   := defaultParams
  pcReset  := 0#13
  regReset := Vector.replicate 8 0#16

/-- What an address outside the program image holds (R143, D15; log 8). -/
def unwrittenWord : Word := 0#16

/-- The rows of a level at reset: every row is empty (R144). -/
def emptyRows (d : Descriptor) : List (List Nat) := List.replicate d.rowCount []

end Sys2Proof.Machine
end

