-- ==== Sys2Proof/Machine/State.lean ====
section
/-! DEFINITION. The state of the core (spec/10_state.md), as plain data, and the machine right after reset. -/

namespace Sys2Proof.Machine

/-- One memory cell: a word address and the 16-bit word there. The word is the smallest addressable unit and there is
no byte address (R32; DEDUCED, log 9). -/
abbrev Cell := Nat × Word

/-- The flat memory (R24), sparse: the cells that differ from `unwrittenWord`, by strictly rising address. -/
abbrev Memory := List Cell

/-- A tag (R64). -/
abbrev Tag := Nat

/-- A cache row: tags from least to most recently used (R25, R66). -/
abbrev Row := List Tag

/-- The cache identifier of an event, the display name of a level (R8, R28). -/
inductive CacheId where
  | L1
  | L2
  deriving DecidableEq, Repr

/-- What a lookup reports (R67). -/
inductive Classification where
  | hit
  | miss
  deriving DecidableEq, Repr

/-- The kind of an event: HIT, MISS or SW (R28). -/
inductive EventKind where
  | hit
  | miss
  | sw
  deriving DecidableEq, Repr

/-- The per-access event record, the 5-tuple of R28. -/
structure Event where
  id   : CacheId
  kind : EventKind
  pc   : Addr
  addr : Addr
  row  : Nat
  deriving DecidableEq, Repr

/-- A cache level: its immutable descriptor and its rows (spec/40_cache.md, opening; R25). -/
structure Level where
  desc : Descriptor
  rows : List Row
  deriving DecidableEq, Repr

/-- The complete state of the core (spec/10_state.md, opening): the tuple of section 8, the event stream, and the immutable
launch configuration (descriptors inside the levels, and `params`), which no step changes (log 1). -/
structure State where
  /-- x[0] to x[7] (R13). -/
  regs   : Vector Word 8
  /-- The program counter, always below 8192 (R18). -/
  pc     : Addr
  /-- Mem (R24). -/
  mem    : Memory
  /-- The first level (R25). -/
  l1     : Level
  /-- The second level, some iff HAS_L2 (R8, R25). -/
  l2     : Option Level
  /-- The run has ended (R22). -/
  halted : Bool
  /-- The event stream, oldest record first (R28). -/
  events : List Event
  /-- The parameters of R9 that steps consult. -/
  params : Params
  deriving DecidableEq, Repr

/-- The faults of a step. There is none: the machine raises no exception, trap, interrupt or fault for any word and any
state (R98, R126; log 18). The type stays in the outcome, without a constructor, as 93_implementation_defined.md asks. -/
inductive Fault
  deriving DecidableEq, Repr

/-- The refusals of a step. -/
inductive Refusal where
  /-- An instruction without a meaning in `exec`; no arm raises it, since every instruction has its meaning. Safe. -/
  | notModelled (mnemonic : String)
  /-- Raised by a step of a state whose L1 or L2 descriptor is invalid: no machine exists for it and there is no step from
  it (R63, D22, U4 of 93_implementation_defined.md; log 11). Safe. -/
  | invalidConfiguration
  deriving DecidableEq, Repr

/-- A level at reset: every row empty (R144). -/
def Level.reset (d : Descriptor) : Level := { desc := d, rows := emptyRows d }

/-- The machine right after the default launch with an empty program image (R141 to R145; log 2, 3, 7, 8). -/
def State.reset : State where
  regs   := defaultLaunch.regReset
  pc     := defaultLaunch.pcReset
  mem    := []
  l1     := Level.reset defaultLaunch.l1
  l2     := defaultLaunch.l2.map Level.reset
  halted := false
  events := []
  params := defaultLaunch.params

end Sys2Proof.Machine
end

