-- ==== Sys2Proof/Machine/Ops.lean ====
section
/-! DEFINITION. The named operations over memory, registers and the program counter (spec/10_state.md, spec/20_memory.md), and
the end of a step (spec/41_step.md R90, R92). The machine takes no exception and returns from none (spec/60_exceptions.md R126,
R130, R131), so no operation for that stands here. -/

namespace Sys2Proof.Machine

/-! ### Memory (R24, R31 to R37) -/

/-- The word at an address of the cell list. -/
def Memory.readCell : Memory → Nat → Word
  | [], _ => unwrittenWord
  | (a, w) :: m, k => if a = k then w else readCell m k

/-- The cell list with the word at an address replaced, in canonical form. -/
def Memory.writeCell : Memory → Nat → Word → Memory
  | [], k, v => if v = unwrittenWord then [] else [(k, v)]
  | (a, w) :: m, k, v =>
    if k < a then (if v = unwrittenWord then (a, w) :: m else (k, v) :: (a, w) :: m)
    else if k = a then (if v = unwrittenWord then m else (k, v) :: m)
    else (a, w) :: writeCell m k v

/-- `MemRead(a, 1)` (R11): the word at an address. Every address exists (R37). -/
def Memory.read (m : Memory) (a : Addr) : Word := m.readCell a.toNat

/-- `MemWrite(a, 1, v)` (R11). -/
def Memory.write (m : Memory) (a : Addr) (v : Word) : Memory := m.writeCell a.toNat v

/-- The canonical form: strictly rising addresses below 8192, and no cell that holds what an unlisted address reads as. -/
abbrev Memory.wf (m : Memory) : Prop :=
  m.Pairwise (fun c d => c.1 < d.1) ∧ ∀ c ∈ m, c.1 < memSize ∧ c.2 ≠ unwrittenWord

/-- The cells of a program image laid out from an address on, in canonical form (R27, R143). -/
def imageCells : Nat → List Word → Memory
  | _, [] => []
  | a, w :: ws => if w = unwrittenWord then imageCells (a + 1) ws else (a, w) :: imageCells (a + 1) ws

/-! ### Registers and program counter -/

/-- Read `x[r]` (R11, R13). -/
def State.reg (s : State) (r : RegIdx) : Word := s.regs[r.toNat]'r.isLt

/-- Write `x[r]`; a write to register 0 is discarded (R15; log 13). -/
def State.setReg (s : State) (r : RegIdx) (v : Word) : State :=
  if r = zeroRegister then s else { s with regs := s.regs.set r.toNat v r.isLt }

/-- `pc <- t` (R11). -/
def State.setPc (s : State) (t : Addr) : State := { s with pc := t }

/-- `pc <- (cur + 1) umod 8192` (R89, R20). -/
def State.advance (s : State) : State := s.setPc (s.pc + 1#13)

/-- `halted <- true` (R11, R22). -/
def State.halt (s : State) : State := { s with halted := true }

/-- The memory word at an address. -/
def State.readWord (s : State) (a : Addr) : Word := s.mem.read a

/-- Store a word (R34). -/
def State.writeWord (s : State) (a : Addr) (v : Word) : State := { s with mem := s.mem.write a v }

/-- Write a result register and advance: the end of every instruction that computes a register (R89). -/
def State.writeResult (s : State) (r : RegIdx) (v : Word) : State := (s.setReg r v).advance

/-! ### The frame of a step (R87, R90, R92) -/

/-- The fetch: the word at pc, from the flat memory, past no cache and without an event (R87, R45; log 23). -/
def State.fetch (s : State) : Word := s.readWord s.pc

/-- `x[0] <- 0` (R90). -/
def State.forceZero (s : State) : State := { s with regs := s.regs.set 0 0#16 }

/-- Terminal condition 2: pc = 8191 ends the run (R92). -/
def State.stopAtLast (s : State) : State := if s.pc = lastAddress then s.halt else s

/-- The end of every step (R93): force register 0, then test terminal condition 2. -/
def State.retire (s : State) : State := s.forceZero.stopAtLast

/-- Both descriptors are valid (R63). -/
def State.configValid (s : State) : Bool := s.l1.desc.valid && s.l2.all (fun l => l.desc.valid)

end Sys2Proof.Machine
end

