-- ==== Sys2Proof/Machine/Cache.lean ====
section
/-! DEFINITION. The cache hierarchy (spec/40_cache.md): address decomposition, the LRU controller, the hit/miss classifier and
the two-level wiring. It classifies and records; it never supplies a value (R71). -/

namespace Sys2Proof.Machine

/-! ### Address decomposition (R64) -/

/-- `blockId(L, a) = a / blockSize`. -/
def blockId (d : Descriptor) (a : Addr) : Nat := a.toNat / d.blockSize

/-- `row(L, a) = blockId mod rowCount`. -/
def rowIndex (d : Descriptor) (a : Addr) : Nat := blockId d a % d.rowCount

/-- `tag(L, a) = blockId / rowCount`. -/
def tagOf (d : Descriptor) (a : Addr) : Tag := blockId d a / d.rowCount

/-! ### Row operations -/

/-- `lookup` (R67): a hit moves the tag to the tail, the occurrence nearest the head or all of them by LOOKUP_DUP (D12). -/
def rowLookup (p : LookupDup) (row : Row) (t : Tag) : Classification × Row :=
  if t ∈ row then
    match p with
    | .firstOccurrence => (.hit, row.erase t ++ [t])
    | .allOccurrences  => (.hit, row.filter (fun u => decide (u ≠ t)) ++ [t])
  else (.miss, row)

/-- `insert` (R68): evict the head of a full row, then append. -/
def rowInsert (assoc : Nat) (row : Row) (t : Tag) : Row :=
  if assoc ≤ row.length then row.tail ++ [t] else row ++ [t]

/-- `directReplace` (R69). -/
def rowDirectReplace (row : Row) (t : Tag) : Classification × Row :=
  if row = [t] then (.hit, [t]) else (.miss, [t])

/-- What a read does to its row (R72). -/
def rowRead (p : Params) (assoc : Nat) (row : Row) (t : Tag) : Classification × Row :=
  if assoc = 1 then rowDirectReplace row t
  else match rowLookup p.lookupDup row t with
    | (.hit, row')  => (.hit, row')
    | (.miss, row') => (.miss, rowInsert assoc row' t)

/-- What a write does to its row (R73, R74); its classification is not reported. -/
def rowWrite (p : Params) (assoc : Nat) (row : Row) (t : Tag) : Row :=
  if assoc = 1 then (rowDirectReplace row t).2
  else match p.writePolicy, rowLookup p.lookupDup row t with
    | .faithfulDuplicate, (_, row')     => rowInsert assoc row' t
    | .insertOnMiss,      (.hit, row')  => row'
    | .insertOnMiss,      (.miss, row') => rowInsert assoc row' t

/-! ### A cache level -/

/-- `L.rows[r]`. -/
def Level.row (l : Level) (r : Nat) : Row := l.rows.getD r []

/-- `L.rows[r] <- row`. -/
def Level.setRow (l : Level) (r : Nat) (row : Row) : Level := { l with rows := l.rows.set r row }

/-- The classification a read of a level reports (R72). -/
def Level.readClass (p : Params) (l : Level) (a : Addr) : Classification :=
  (rowRead p l.desc.assoc (l.row (rowIndex l.desc a)) (tagOf l.desc a)).1

/-- The level after a read (R72). -/
def Level.afterRead (p : Params) (l : Level) (a : Addr) : Level :=
  l.setRow (rowIndex l.desc a) (rowRead p l.desc.assoc (l.row (rowIndex l.desc a)) (tagOf l.desc a)).2

/-- The level after a write (R73, R74). -/
def Level.afterWrite (p : Params) (l : Level) (a : Addr) : Level :=
  l.setRow (rowIndex l.desc a) (rowWrite p l.desc.assoc (l.row (rowIndex l.desc a)) (tagOf l.desc a))

/-- The event kind of a classification (R28). -/
def Classification.kind : Classification → EventKind
  | .hit  => .hit
  | .miss => .miss

/-- The event of a read (R72). -/
def Level.readEvent (p : Params) (id : CacheId) (l : Level) (a cur : Addr) : Event :=
  { id := id, kind := (l.readClass p a).kind, pc := cur, addr := a, row := rowIndex l.desc a }

/-- The event of a write, always SW (R73). -/
def Level.writeEvent (id : CacheId) (l : Level) (a cur : Addr) : Event :=
  { id := id, kind := .sw, pc := cur, addr := a, row := rowIndex l.desc a }

/-! ### The hierarchy (R76, R77) -/

/-- `emit`: append one event record (R11, R28). -/
def State.emit (s : State) (e : Event) : State := { s with events := s.events ++ [e] }

/-- `CacheRead(L1, a, cur)`. -/
def State.readL1 (s : State) (a : Addr) : State :=
  { s with l1 := s.l1.afterRead s.params a }.emit (s.l1.readEvent s.params .L1 a s.pc)

/-- `CacheRead(L2, a, cur)`, for a machine whose L2 is `l`. -/
def State.readL2 (s : State) (l : Level) (a : Addr) : State :=
  { s with l2 := some (l.afterRead s.params a) }.emit (l.readEvent s.params .L2 a s.pc)

/-- `CacheWrite(L1, a, cur)`. -/
def State.writeL1 (s : State) (a : Addr) : State :=
  { s with l1 := s.l1.afterWrite s.params a }.emit (s.l1.writeEvent .L1 a s.pc)

/-- `CacheWrite(L2, a, cur)`, for a machine whose L2 is `l`. -/
def State.writeL2 (s : State) (l : Level) (a : Addr) : State :=
  { s with l2 := some (l.afterWrite s.params a) }.emit (l.writeEvent .L2 a s.pc)

/-- The load path (R76): L2 is read only on an L1 miss. -/
def State.loadPath (s : State) (a : Addr) : State :=
  match s.l1.readClass s.params a, s.l2 with
  | .miss, some l => (s.readL1 a).readL2 l a
  | _, _          => s.readL1 a

/-- The store path (R77): L1, then L2 if there is one. -/
def State.storePath (s : State) (a : Addr) : State :=
  match s.l2 with
  | some l => (s.writeL1 a).writeL2 l a
  | none   => s.writeL1 a

end Sys2Proof.Machine
end

