-- ==== Sys2Proof/Machine/Operands.lean ====
section
/-! DEFINITION. The operand forms: register direct, the sign-extended immediate, the effective address of lw and sw, the
branch target of jeq (spec/30_encoding.md R52, R53; spec/44_immediate.md R120, R121), and the field roles of slt and jr
(spec/43_register.md R115). -/

namespace Sys2Proof.Machine

/-- `sext_16` (R11, R52; log 22). -/
def sext16 (imm : Imm7) : Word := imm.signExtend 16

/-- `simm`: the immediate as an integer, -64 to 63 (R11, R52). -/
def simm (imm : Imm7) : Int := imm.toInt

/-- `s16`: the two's-complement reading of a word (R10). -/
def s16 (v : Word) : Int := v.toInt

/-- The low 13 bits of a word: its value reduced modulo 8192 (R37). -/
def wrapAddr (v : Word) : Addr := v.setWidth 13

/-- `ea = (x[ra] + simm) umod 8192` (R121), in the form of the 16-bit wrapped sum (R37; log 14). -/
def State.effectiveAddress (s : State) (ra : RegIdx) (imm : Imm7) : Addr := wrapAddr (s.reg ra + sext16 imm)

/-- The target of a taken jeq, `(cur + 1 + simm) umod 8192` (R120; log 14). -/
def State.branchTarget (s : State) (imm : Imm7) : Addr := s.pc + 1#13 + wrapAddr (sext16 imm)

/-- The link value `cur + 1`, 16 bits, not reduced modulo 8192 (R102, D19; log 16). -/
def State.linkValue (s : State) : Word := s.pc.setWidth 16 + 1#16

/-- The register slt writes (R115, D3). -/
def sltDestination : RoleMap → RegIdx → RegIdx → RegIdx
  | .docLiteral, ra, _ => ra
  | .e20Uniform, _, rc => rc

/-- The registers slt compares, left and right (R115, D3). -/
def sltOperands : RoleMap → RegIdx → RegIdx → RegIdx → RegIdx × RegIdx
  | .docLiteral, _, rb, rc => (rb, rc)
  | .e20Uniform, ra, rb, _ => (ra, rb)

/-- The register jr reads (R115, D3). -/
def jrSource : RoleMap → RegIdx → RegIdx → RegIdx
  | .docLiteral, _, rb => rb
  | .e20Uniform, ra, _ => ra

end Sys2Proof.Machine
end

