-- ==== Sys2Proof/Machine/Flags.lean ====
section
/-! DEFINITION. The core has no flag and no condition code (spec/10_state.md R21): comparisons give the register value 0
or 1. Those comparisons, and the ALU of spec/43_register.md R113. -/

namespace Sys2Proof.Machine

/-- "boolean 0/1" as a register value (R21). -/
def boolWord (b : Bool) : Word := if b then 1#16 else 0#16

/-- The operations of the ALU (R113). -/
inductive AluOp where
  | add | sub | or | and | sltu | slts
  deriving DecidableEq, Repr

/-- The ALU (R112, R113): 16 bits, overflow and borrow wrap silently (D9; log 22). -/
def alu : AluOp → Word → Word → Word
  | .add,  a, b => a + b
  | .sub,  a, b => a - b
  | .or,   a, b => a ||| b
  | .and,  a, b => a &&& b
  | .sltu, a, b => boolWord (decide (a.toNat < b.toNat))
  | .slts, a, b => boolWord (decide (s16 a < s16 b))

/-- slt's comparison (R109, D8). -/
def sltAlu : SltCompare → AluOp
  | .unsigned16 => .sltu
  | .signed16   => .slts

/-- slti's comparison of a register value with the immediate (R116, D7). -/
def sltiHolds : SltiCompare → Word → Imm7 → Bool
  | .signed16,         x, imm => decide (s16 x < simm imm)
  | .zextRegVsSextImm, x, imm => decide ((x.toNat : Int) < simm imm)
  | .unsigned16,       x, imm => decide (x.toNat < (sext16 imm).toNat)

end Sys2Proof.Machine
end

