-- ==== Sys2Proof/Machine/Immediate.lean ====
section
/-! DEFINITION. The immediate class (spec/44_immediate.md): addi, lw, sw, jeq, slti. Only lw and sw access memory and the
caches and emit events (R122). -/

namespace Sys2Proof.Machine

/-- R118. -/
def execAddi (ra rb : RegIdx) (imm : Imm7) (s : State) : Host.Outcome State Fault Refusal :=
  .next (s.writeResult rb (alu .add (s.reg ra) (sext16 imm)))

/-- R116: by SLTI_COMPARE. -/
def execSlti (ra rb : RegIdx) (imm : Imm7) (s : State) : Host.Outcome State Fault Refusal :=
  .next (s.writeResult rb (boolWord (sltiHolds s.params.sltiCompare (s.reg ra) imm)))

/-- R119: the cache reads and their events, then the register from flat memory, whatever the classification (R35). -/
def execLw (ra rb : RegIdx) (imm : Imm7) (s : State) : Host.Outcome State Fault Refusal :=
  let ea := s.effectiveAddress ra imm
  .next ((s.loadPath ea).writeResult rb (s.readWord ea))

/-- R117: memory, then L1, then L2 (D31; log 25). -/
def execSw (ra rb : RegIdx) (imm : Imm7) (s : State) : Host.Outcome State Fault Refusal :=
  let ea := s.effectiveAddress ra imm
  .next ((s.writeWord ea (s.reg rb)).storePath ea).advance

/-- R120: no self-branch halts (D18; log 15). -/
def execJeq (ra rb : RegIdx) (imm : Imm7) (s : State) : Host.Outcome State Fault Refusal :=
  if s.reg ra = s.reg rb then .next (s.setPc (s.branchTarget imm)) else .next s.advance

end Sys2Proof.Machine
end

