-- ==== Sys2Proof/Machine/Jump.lean ====
section
/-! DEFINITION. The jump class (spec/42_jump.md): j and jal. -/

namespace Sys2Proof.Machine

/-- R101: a jump to its own address ends the run and leaves pc there (R91). -/
def execJ (target : Addr) (s : State) : Host.Outcome State Fault Refusal :=
  if target = s.pc then .next s.halt else .next (s.setPc target)

/-- R102: link, then jump; a self-target does not halt (D18; log 15). -/
def execJal (target : Addr) (s : State) : Host.Outcome State Fault Refusal :=
  .next ((s.setReg linkRegister s.linkValue).setPc target)

end Sys2Proof.Machine
end

