-- ==== Sys2Proof/Machine/Register.lean ====
section
/-! DEFINITION. The register-register class (spec/43_register.md): add, sub, or, and, slt, jr and the reserved function
codes. None touches memory or a cache, none emits an event. -/

namespace Sys2Proof.Machine

/-- `x[rc] <- alu op x[ra] x[rb]`, then advance: the shape of add, sub, or and and (R105 to R108). -/
def aluRegister (op : AluOp) (ra rb rc : RegIdx) (s : State) : Host.Outcome State Fault Refusal :=
  .next (s.writeResult rc (alu op (s.reg ra) (s.reg rb)))

/-- An unrecognised function code is a silent no-op that advances pc (R58, R111). -/
def reservedNoOp (s : State) : Host.Outcome State Fault Refusal := .next s.advance

/-- R105. -/
def execAdd (ra rb rc : RegIdx) (s : State) : Host.Outcome State Fault Refusal := aluRegister .add ra rb rc s

/-- R106: the minuend is ra. -/
def execSub (ra rb rc : RegIdx) (s : State) : Host.Outcome State Fault Refusal := aluRegister .sub ra rb rc s

/-- R107. -/
def execOr (ra rb rc : RegIdx) (s : State) : Host.Outcome State Fault Refusal := aluRegister .or ra rb rc s

/-- R108. -/
def execAnd (ra rb rc : RegIdx) (s : State) : Host.Outcome State Fault Refusal := aluRegister .and ra rb rc s

/-- R109, R115: roles by R_ROLE_MAP, comparison by SLT_COMPARE. -/
def execSlt (ra rb rc : RegIdx) (s : State) : Host.Outcome State Fault Refusal :=
  let ops := sltOperands s.params.roleMap ra rb rc
  .next (s.writeResult (sltDestination s.params.roleMap ra rc)
    (alu (sltAlu s.params.sltCompare) (s.reg ops.1) (s.reg ops.2)))

/-- R110, R115: no advance; rc and the register field that R_ROLE_MAP does not choose are ignored (R59; log 20). -/
def execJr (ra rb _rc : RegIdx) (s : State) : Host.Outcome State Fault Refusal :=
  .next (s.setPc (wrapAddr (s.reg (jrSource s.params.roleMap ra rb))))

/-- R111. -/
def execReserved0101 (_ignored : BitVec 9) (s : State) : Host.Outcome State Fault Refusal := reservedNoOp s

/-- R111. -/
def execReserved011x (_ignored : BitVec 9) (_x : BitVec 1) (s : State) : Host.Outcome State Fault Refusal := reservedNoOp s

/-- R111. -/
def execReserved1001 (_ignored : BitVec 9) (s : State) : Host.Outcome State Fault Refusal := reservedNoOp s

/-- R111. -/
def execReserved101x (_ignored : BitVec 9) (_x : BitVec 1) (s : State) : Host.Outcome State Fault Refusal := reservedNoOp s

/-- R111. -/
def execReserved11xx (_ignored : BitVec 9) (_x : BitVec 2) (s : State) : Host.Outcome State Fault Refusal := reservedNoOp s

end Sys2Proof.Machine
end

