-- ==== Sys2Proof/Machine/Dispatch.lean ====
section
/-! DEFINITION. One arm per instruction (spec/41_step.md R88). -/

namespace Sys2Proof.Machine

def exec (i : Instr) (s : State) : Host.Outcome State Fault Refusal :=
  match i with
  | .add ra rb rc => Sys2Proof.Machine.execAdd ra rb rc s
  | .sub ra rb rc => Sys2Proof.Machine.execSub ra rb rc s
  | .or ra rb rc => Sys2Proof.Machine.execOr ra rb rc s
  | .and ra rb rc => Sys2Proof.Machine.execAnd ra rb rc s
  | .slt ra rb rc => Sys2Proof.Machine.execSlt ra rb rc s
  | .jr ra rb rc => Sys2Proof.Machine.execJr ra rb rc s
  | .addi ra rb imm => Sys2Proof.Machine.execAddi ra rb imm s
  | .j target => Sys2Proof.Machine.execJ target s
  | .jal target => Sys2Proof.Machine.execJal target s
  | .lw ra rb imm => Sys2Proof.Machine.execLw ra rb imm s
  | .sw ra rb imm => Sys2Proof.Machine.execSw ra rb imm s
  | .jeq ra rb imm => Sys2Proof.Machine.execJeq ra rb imm s
  | .slti ra rb imm => Sys2Proof.Machine.execSlti ra rb imm s
  | .reserved0101 ignored => Sys2Proof.Machine.execReserved0101 ignored s
  | .reserved011x ignored x => Sys2Proof.Machine.execReserved011x ignored x s
  | .reserved1001 ignored => Sys2Proof.Machine.execReserved1001 ignored s
  | .reserved101x ignored x => Sys2Proof.Machine.execReserved101x ignored x s
  | .reserved11xx ignored x => Sys2Proof.Machine.execReserved11xx ignored x s

end Sys2Proof.Machine
end

