-- ==== Sys2Proof/Machine/Cycle.lean ====
section
/-! DEFINITION. The fetch, decode, execute cycle (spec/41_step.md R93), the launch of a run (spec/70_reset_and_hazards.md R147)
and the report after it (spec/10_state.md R29, spec/41_step.md R100). -/

namespace Sys2Proof.Machine

/-- The instruction at pc (R87, R88). -/
def State.currentInstr (s : State) : Instr := decode s.params.immOpcodeMap s.fetch

/-- The phases of a running step (R93): fetch, decode, execute, force register 0, test terminal condition 2. -/
def runCycle (s : State) : Host.Outcome State Fault Refusal :=
  match exec s.currentInstr s with
  | .next t    => .next t.retire
  | .fault r   => .fault r
  | .refused r => .refused r

/-- One step. No machine exists for an invalid configuration (R63, D22; log 11); a halted machine keeps its state (R94, D16;
log 10); any other state has exactly one successor (R95, R98). -/
def cycle (s : State) : Host.Outcome State Fault Refusal :=
  if s.configValid = false then .refused .invalidConfiguration
  else if s.halted then .next s
  else runCycle s

/-- The state whose very next cycle runs the given word: the word stands at pc and the machine runs (log 12). -/
def placeFetchWord (s : State) (nbits w : Nat) : State :=
  { s.writeWord s.pc (BitVec.ofNat 16 (w % 2 ^ nbits)) with halted := false }

/-- The launch of a run (R141 to R147): none for a configuration error or an image longer than memory (R127). -/
def State.launch (c : LaunchConfig) (image : List Word) : Option State :=
  if c.valid && imageFits image then
    some { regs := c.regReset, pc := c.pcReset, mem := imageCells 0 image, l1 := Level.reset c.l1,
           l2 := c.l2.map Level.reset, halted := false, events := [], params := c.params }
  else none

/-- The core's part of the final-state report: pc, registers and memory, once the run has ended (R29). -/
def State.finalState (s : State) : Option (Addr × Vector Word 8 × Memory) :=
  if s.halted then some (s.pc, s.regs, s.mem) else none

/-- What can be observed of a run up to a state: its events, whether it has ended, and the final state if so (R100). -/
def State.observation (s : State) : List Event × Bool × Option (Addr × Vector Word 8 × Memory) :=
  (s.events, s.halted, s.finalState)

end Sys2Proof.Machine
end

