-- ==== Sys2Proof/Safety.lean ====
section
/-! DEFINITION. The terms in which statements about the machine are made: the invariant of its states, the frames of its
instructions, and the part of a state that a program can see. -/

namespace Sys2Proof.Machine

/-! ### The invariant -/

/-- A row of a level is within its bounds: at most assoc tags (R66), each the tag of a block of memory that maps to this row
(R64), and none twice under `insert_on_miss` (R66, R74). -/
abbrev Row.wf (p : Params) (d : Descriptor) (r : Nat) (row : Row) : Prop :=
  row.length ≤ d.assoc ∧ (∀ t ∈ row, t * d.rowCount + r ≤ (memSize - 1) / d.blockSize) ∧
    (p.writePolicy = .insertOnMiss → row.Nodup)

/-- A level is the level of a valid descriptor, with one row per row index (R25, R63). -/
abbrev Level.wf (p : Params) (l : Level) : Prop :=
  l.desc.valid = true ∧ l.rows.length = l.desc.rowCount ∧ ∀ r < l.desc.rowCount, Row.wf p l.desc r (l.row r)

/-- The descriptor of the level an event record names, if the machine has that level (R8). -/
def State.descriptorOf (s : State) : CacheId → Option Descriptor
  | .L1 => some s.l1.desc
  | .L2 => s.l2.map (fun l => l.desc)

/-- An event record of the machine: no instruction executes at 8191 (R28, R92), the level it names exists, and its row is
that of its address in that level (R28, R64). -/
abbrev Event.wf (s : State) (e : Event) : Prop :=
  e.pc ≠ lastAddress ∧ (s.descriptorOf e.id).map (fun d => rowIndex d e.addr) = some e.row

/-- What holds in every state a run reaches: register 0 is 0 (R15), the memory is canonical, the levels are well formed,
pc = 8191 only once the run has ended (R92), and every event record is well formed. -/
abbrev State.Inv (s : State) : Prop :=
  s.reg zeroRegister = 0#16 ∧ s.mem.wf ∧ s.l1.wf s.params ∧ (∀ l ∈ s.l2.toList, l.wf s.params) ∧
    (s.pc = lastAddress → s.halted = true) ∧ ∀ e ∈ s.events, e.wf s

/-! ### Frames -/

/-- Everything but the registers, the program counter and the run status is as before: the frame of an instruction that
touches neither memory nor a cache and emits no event. -/
def SameMemoryCachesEvents (s t : State) : Prop :=
  (∀ a, t.readWord a = s.readWord a) ∧ t.mem = s.mem ∧ t.l1 = s.l1 ∧ t.l2 = s.l2 ∧ t.events = s.events ∧
    t.params = s.params

/-- Every register but `d` is as before. -/
def SameRegsExcept (d : RegIdx) (s t : State) : Prop := ∀ r, r ≠ d → t.reg r = s.reg r

/-- Every register is as before. -/
def SameRegs (s t : State) : Prop := ∀ r, t.reg r = s.reg r

/-- What writing `v` to register `d` leaves in the registers: `v` in `d` and the others as before, and nothing written
where `d` is register 0 (R15). -/
def RegWritten (d : RegIdx) (v : Nat) (s t : State) : Prop :=
  (d ≠ zeroRegister → (t.reg d).toNat = v) ∧ (d = zeroRegister → SameRegs s t) ∧ SameRegsExcept d s t

/-- pc is one further, modulo 8192 (R89). -/
def Advanced (s t : State) : Prop := t.pc.toNat = (s.pc.toNat + 1) % memSize

/-- The outcome of an instruction that writes the value `v` to register `d` and advances, and does nothing else. -/
def WritesRegister (d : RegIdx) (v : Nat) (s t : State) : Prop :=
  RegWritten d v s t ∧ Advanced s t ∧ t.halted = s.halted ∧ SameMemoryCachesEvents s t

/-! ### What a program can see (R39) -/

/-- Two states that agree on all that computes a register, a memory word or pc: the caches, the event stream and the cache
parameters may differ (R39). -/
def SameProgramView (s t : State) : Prop :=
  (∀ r, t.reg r = s.reg r) ∧ t.pc = s.pc ∧ t.mem = s.mem ∧ t.halted = s.halted ∧
    t.params.roleMap = s.params.roleMap ∧ t.params.immOpcodeMap = s.params.immOpcodeMap ∧
    t.params.sltiCompare = s.params.sltiCompare ∧ t.params.sltCompare = s.params.sltCompare

/-! ### Classes of instructions and sequences of accesses -/

/-- The instructions of the immediate class (R122). -/
def isImmediate : Instr → Bool
  | .addi _ _ _ | .lw _ _ _ | .sw _ _ _ | .jeq _ _ _ | .slti _ _ _ => true
  | .add _ _ _ | .sub _ _ _ | .or _ _ _ | .and _ _ _ | .slt _ _ _ | .jr _ _ _ | .j _ | .jal _ => false
  | .reserved0101 _ | .reserved011x _ _ | .reserved1001 _ | .reserved101x _ _ | .reserved11xx _ _ => false

/-- The instructions that access memory and the caches (R28, R122). -/
def isLoadOrStore : Instr → Bool
  | .lw _ _ _ | .sw _ _ _ => true
  | .add _ _ _ | .sub _ _ _ | .or _ _ _ | .and _ _ _ | .slt _ _ _ | .jr _ _ _ | .j _ | .jal _ => false
  | .addi _ _ _ | .jeq _ _ _ | .slti _ _ _ => false
  | .reserved0101 _ | .reserved011x _ _ | .reserved1001 _ | .reserved101x _ _ | .reserved11xx _ _ => false

/-- The address an instruction stores to: the effective address of sw (R117, R121), and none for any other (R122). -/
def storeAddress (i : Instr) (s : State) : Option Addr :=
  match i with
  | .sw ra _ imm => some (s.effectiveAddress ra imm)
  | .add _ _ _ | .sub _ _ _ | .or _ _ _ | .and _ _ _ | .slt _ _ _ | .jr _ _ _ | .j _ | .jal _ => none
  | .addi _ _ _ | .lw _ _ _ | .jeq _ _ _ | .slti _ _ _ => none
  | .reserved0101 _ | .reserved011x _ _ | .reserved1001 _ | .reserved101x _ _ | .reserved11xx _ _ => none

/-- The meanings of a list of instructions, one after the other. -/
def execList : List Instr → State → Host.Outcome State Fault Refusal
  | [], s => .next s
  | i :: is, s =>
    match exec i s with
    | .next t    => execList is t
    | .fault r   => .fault r
    | .refused r => .refused r

/-- None of the instructions, each taken in the state that those before it give, stores to `a` (R40). -/
def NoStoreTo (a : Addr) : List Instr → State → Prop
  | [], _ => True
  | i :: is, s => storeAddress i s ≠ some a ∧ ∀ t, exec i s = .next t → NoStoreTo a is t

/-- `n` steps of the machine, stopping at the first fault or refusal (R95). -/
def runSteps : Nat → State → Host.Outcome State Fault Refusal
  | 0, s => .next s
  | n + 1, s =>
    match step s with
    | .next t    => runSteps n t
    | .fault r   => .fault r
    | .refused r => .refused r

/-- Reads of a list of tags in one row, one after the other: what each reports, and the row after the last (R72, R81). -/
def readTags (p : Params) (assoc : Nat) : Row → List Tag → List Classification × Row
  | row, [] => ([], row)
  | row, t :: ts =>
    let r := rowRead p assoc row t
    let rest := readTags p assoc r.2 ts
    (r.1 :: rest.1, rest.2)

/-- `n` writes of one tag in a row (R75). -/
def writeTagTimes (p : Params) (assoc : Nat) (t : Tag) : Nat → Row → Row
  | 0, row => row
  | n + 1, row => writeTagTimes p assoc t n (rowWrite p assoc row t)

/-- A safe state: one that meets the invariant. No step from it is refused and every step keeps it (R98). -/
abbrev Safe (s : State) : Prop := s.Inv

end Sys2Proof.Machine
end

