-- ==== Sys2Proof/Certificates/Slice0/Obligations.lean ====
section
/-! DEFINITION. The statements for the provers, each from the numbered rules of spec/. Where a clause rests on a decision the
spec marks as its own, or on a choice of the model, the docstring names it. -/

open Sys2Proof Sys2Proof.Machine

/-! ### Encoding -/

/-- R46 to R61, under both pairings of R56. Every term of Instr is well formed (`Instr.wellFormed`), so the statement covers
every instruction and every operand value. The field positions and the function codes are the spec's decisions D2 and D4
(log 4, log 6). -/
def Obligations.DecodeOfEncodeIsTheInstruction : Prop :=
  ∀ (m : ImmOpcodeMap) (i : Instr), decode m (encode m i) = i

/-- R57, R103, R122: no bit of any of the 65536 words is dropped (layout and function codes: D2, D4; log 4, log 6, log 20). -/
def Obligations.EncodeOfDecodeIsTheWord : Prop :=
  ∀ (m : ImmOpcodeMap) (w : Word), encode m (decode m w) = w

/-- R57 with the default maps of R55 and R56 (the spec's decisions D4, D5; log 4, log 5): a word decodes to the instruction
of a row of spec/opcode_table.json iff it fits the row's match and mask. -/
def Obligations.DecodeFollowsTheOpcodeTable : Prop :=
  ∀ (w : Word), ∀ r ∈ opcodeTable, ((decode tableImmOpcodeMap w).mnemonic = r.mnemonic ↔ r.fits w)

/-- R56 (the spec's decision D5; log 5): in the immediate class the two pairings give a word the same instruction iff its
opcode is 101; outside it they never differ. -/
def Obligations.PairingsAgreeInTheImmediateClassOnlyOnSw : Prop :=
  ∀ (w : Word), decode .published w = decode .positional w ↔ opField w ∈ [0b000#3, 0b010#3, 0b011#3, 0b101#3]

/-- The encodings of the programs of 95_test_vectors.md, one word or more of each family (D2, D4, D5; log 4 to 6). -/
def Obligations.SampleWordsDecode : Prop :=
  decodeTableWord 16 0x08A0 = some (.add 2 1 2) ∧ decodeTableWord 16 0x0531 = some (.sub 1 2 3) ∧
  decodeTableWord 16 0x0534 = some (.slt 1 2 3) ∧ decodeTableWord 16 0x1F88 = some (.jr 7 7 0) ∧
  decodeTableWord 16 0x000F = some (.reserved11xx 0 3) ∧ decodeTableWord 16 0x4002 = some (.j 2) ∧
  decodeTableWord 16 0x6007 = some (.jal 7) ∧ decodeTableWord 16 0x24FF = some (.addi 1 1 0x7F) ∧
  decodeTableWord 16 0x8128 = some (.lw 0 2 40) ∧ decodeTableWord 16 0xA0A8 = some (.sw 0 1 40) ∧
  decodeTableWord 16 0xC403 = some (.jeq 1 0 3) ∧ decodeTableWord 16 0xEF03 = some (.slti 3 6 3)

/-! ### The register-register class -/

/-- R105: `x[rc] <- (x[ra] + x[rb]) mod 65536`; with rc = 0 nothing is written (R15). The wrap is the spec's D9 (log 22). -/
def Obligations.AddWritesTheSumModulo65536 : Prop :=
  ∀ (s : State) (ra rb rc : RegIdx), ∃ t, exec (.add ra rb rc) s = .next t ∧
    WritesRegister rc (((s.reg ra).toNat + (s.reg rb).toNat) % 65536) s t

/-- R106: `x[rc] <- (x[ra] - x[rb]) mod 65536`, the non-negative remainder (D9; log 22). -/
def Obligations.SubWritesTheDifferenceModulo65536 : Prop :=
  ∀ (s : State) (ra rb rc : RegIdx), ∃ t, exec (.sub ra rb rc) s = .next t ∧
    WritesRegister rc ((((s.reg ra).toNat : Int) - ((s.reg rb).toNat : Int)) % 65536).toNat s t

/-- R107, R108: bitwise or and bitwise and. -/
def Obligations.OrAndWriteTheBitwiseResult : Prop :=
  ∀ (s : State) (ra rb rc : RegIdx),
    (∃ t, exec (.or ra rb rc) s = .next t ∧
      WritesRegister rc ((s.reg ra).toNat ||| (s.reg rb).toNat) s t) ∧
    (∃ t, exec (.and ra rb rc) s = .next t ∧
      WritesRegister rc ((s.reg ra).toNat &&& (s.reg rb).toNat) s t)

/-- R109, R115: slt under both values of R_ROLE_MAP and of SLT_COMPARE (the spec's decisions D3, D8; log 3). -/
def Obligations.SltWritesTheComparison : Prop :=
  ∀ (s : State) (ra rb rc : RegIdx), ∃ t, exec (.slt ra rb rc) s = .next t ∧
    (s.params.roleMap = .docLiteral → s.params.sltCompare = .unsigned16 →
      WritesRegister ra (if (s.reg rb).toNat < (s.reg rc).toNat then 1 else 0) s t) ∧
    (s.params.roleMap = .docLiteral → s.params.sltCompare = .signed16 →
      WritesRegister ra (if (s.reg rb).toInt < (s.reg rc).toInt then 1 else 0) s t) ∧
    (s.params.roleMap = .e20Uniform → s.params.sltCompare = .unsigned16 →
      WritesRegister rc (if (s.reg ra).toNat < (s.reg rb).toNat then 1 else 0) s t) ∧
    (s.params.roleMap = .e20Uniform → s.params.sltCompare = .signed16 →
      WritesRegister rc (if (s.reg ra).toInt < (s.reg rb).toInt then 1 else 0) s t)

/-- R110, R115: jr under both values of R_ROLE_MAP (the spec's decision D3; log 3). It never halts by itself (D18; log 15). -/
def Obligations.JrJumpsToTheRegisterModulo8192 : Prop :=
  ∀ (s : State) (ra rb rc : RegIdx), ∃ t, exec (.jr ra rb rc) s = .next t ∧
    (s.params.roleMap = .docLiteral → t.pc.toNat = (s.reg rb).toNat % 8192) ∧
    (s.params.roleMap = .e20Uniform → t.pc.toNat = (s.reg ra).toNat % 8192) ∧
    SameRegs s t ∧ t.halted = s.halted ∧ SameMemoryCachesEvents s t

/-- R58, R111: each of the five rows of reserved function codes is a no-op that advances pc (which codes are unassigned
follows from FUNC_MAP, D4; log 4). -/
def Obligations.ReservedFunctionCodesOnlyAdvance : Prop :=
  ∀ (s : State) (i : Instr),
    ((∃ g, i = .reserved0101 g) ∨ (∃ g x, i = .reserved011x g x) ∨ (∃ g, i = .reserved1001 g) ∨
      (∃ g x, i = .reserved101x g x) ∨ (∃ g x, i = .reserved11xx g x)) →
    ∃ t, exec i s = .next t ∧ Advanced s t ∧ SameRegs s t ∧ t.halted = s.halted ∧ SameMemoryCachesEvents s t

/-! ### The jump class -/

/-- R101: j, its encoding, its jump, and the self-jump that ends the run and leaves pc at its address. The last clause, that no
other instruction itself ends a run, rests on the spec's decision D18 (log 15). -/
def Obligations.JJumpsOrHaltsOnItself : Prop :=
  (∀ (m : ImmOpcodeMap) (w : Word), w &&& 0xE000#16 = 0x4000#16 → ∃ target : Addr,
    decode m w = .j target ∧ target.toNat = w.toNat % 8192) ∧
  (∀ (s : State) (target : Addr), ∃ t, exec (.j target) s = .next t ∧
    SameRegs s t ∧ SameMemoryCachesEvents s t ∧
    (target ≠ s.pc → t.pc = target ∧ t.halted = s.halted) ∧
    (target = s.pc → t.pc = s.pc ∧ t.halted = true)) ∧
  ∀ (i : Instr) (s t : State), exec i s = .next t → t.halted = true → s.halted = true ∨ i = .j s.pc

/-- R102: jal links cur + 1, not reduced modulo 8192 (the spec's decision D19; log 16), and never halts by itself (D18;
log 15). -/
def Obligations.JalLinksAndJumps : Prop :=
  ∀ (s : State) (target : Addr), ∃ t, exec (.jal target) s = .next t ∧
    t.pc = target ∧ (t.reg linkRegister).toNat = s.pc.toNat + 1 ∧ SameRegsExcept linkRegister s t ∧
    t.halted = s.halted ∧ SameMemoryCachesEvents s t

/-- R103: the 13 bits below the opcode of a jump are all target, and neither jump reads a register: whatever the registers hold,
the rest of the next state is the same, j leaves the registers as they are, and jal writes the same link value to register 7 and
leaves the others. -/
def Obligations.JumpsReadNoRegisterAndHaveNoUnusedBits : Prop :=
  (∀ (m : ImmOpcodeMap) (target : Addr),
    decode m (0b010#3 ++ target) = .j target ∧ decode m (0b011#3 ++ target) = .jal target) ∧
  ∀ (s : State) (regs' : Vector Word 8) (target : Addr),
    (∃ t t', exec (.j target) s = .next t ∧ exec (.j target) { s with regs := regs' } = .next t' ∧
      t' = { t with regs := regs' }) ∧
    (∃ t t', exec (.jal target) s = .next t ∧ exec (.jal target) { s with regs := regs' } = .next t' ∧
      t' = { t with regs := regs'.set 7 s.linkValue })

/-! ### The immediate class -/

/-- R118: addi adds the sign-extended immediate modulo 65536 (D9 for the wrap, D6 for the width; log 22). -/
def Obligations.AddiAddsTheSignedImmediate : Prop :=
  ∀ (s : State) (ra rb : RegIdx) (imm : Imm7), ∃ t, exec (.addi ra rb imm) s = .next t ∧
    WritesRegister rb ((((s.reg ra).toNat : Int) + imm.toInt) % 65536).toNat s t

/-- R116: slti under the three values of SLTI_COMPARE (the spec's decisions D7, D30; log 3, log 26). -/
def Obligations.SltiWritesTheComparison : Prop :=
  ∀ (s : State) (ra rb : RegIdx) (imm : Imm7), ∃ t, exec (.slti ra rb imm) s = .next t ∧
    (s.params.sltiCompare = .signed16 →
      WritesRegister rb (if (s.reg ra).toInt < imm.toInt then 1 else 0) s t) ∧
    (s.params.sltiCompare = .zextRegVsSextImm →
      WritesRegister rb (if ((s.reg ra).toNat : Int) < imm.toInt then 1 else 0) s t) ∧
    (s.params.sltiCompare = .unsigned16 →
      WritesRegister rb (if ((s.reg ra).toNat : Int) < imm.toInt % 65536 then 1 else 0) s t)

/-- R116: the three values of SLTI_COMPARE differ only when `x[ra] >= 32768` or `simm < 0` (D7; log 26). -/
def Obligations.SltiComparisonsAgreeOnNonnegativeOperands : Prop :=
  ∀ (x : Word) (imm : Imm7) (c d : SltiCompare), x.toNat < 32768 → 0 ≤ imm.toInt →
    sltiHolds c x imm = sltiHolds d x imm

/-- R119, R121: lw loads the word at `(x[ra] + simm) umod 8192`, whatever the caches classify; negative sums by the spec's
decision D10 (log 14). Its cache side is `Obligations.LoadFallsThroughToL2ExactlyOnAMiss`. -/
def Obligations.LwLoadsTheMemoryWord : Prop :=
  ∀ (s : State) (ra rb : RegIdx) (imm : Imm7), ∃ t, exec (.lw ra rb imm) s = .next t ∧
    ((s.effectiveAddress ra imm).toNat : Int) = (((s.reg ra).toNat : Int) + imm.toInt) % 8192 ∧
    RegWritten rb (s.readWord (s.effectiveAddress ra imm)).toNat s t ∧ Advanced s t ∧ t.halted = s.halted ∧
    t.params = s.params ∧ t.mem = s.mem ∧ (∀ a, t.readWord a = s.readWord a) ∧
    t.l1 = (s.loadPath (s.effectiveAddress ra imm)).l1 ∧ t.l2 = (s.loadPath (s.effectiveAddress ra imm)).l2 ∧
    t.events = (s.loadPath (s.effectiveAddress ra imm)).events

/-- R117, R121: sw stores the register at `(x[ra] + simm) umod 8192` and nowhere else; negative sums by the spec's decision
D10 (log 14). The premise is the memory's canonical form, which every reachable state has (`Obligations.StepKeepsTheInvariant`).
Its cache side is `Obligations.StoreEmitsOneSwEventPerLevel`. -/
def Obligations.SwStoresTheRegister : Prop :=
  ∀ (s : State) (ra rb : RegIdx) (imm : Imm7), s.mem.wf → ∃ t, exec (.sw ra rb imm) s = .next t ∧
    ((s.effectiveAddress ra imm).toNat : Int) = (((s.reg ra).toNat : Int) + imm.toInt) % 8192 ∧
    t.readWord (s.effectiveAddress ra imm) = s.reg rb ∧
    (∀ a, a ≠ s.effectiveAddress ra imm → t.readWord a = s.readWord a) ∧
    SameRegs s t ∧ Advanced s t ∧ t.halted = s.halted ∧ t.params = s.params ∧
    t.l1 = (s.storePath (s.effectiveAddress ra imm)).l1 ∧ t.l2 = (s.storePath (s.effectiveAddress ra imm)).l2 ∧
    t.events = (s.storePath (s.effectiveAddress ra imm)).events

/-- R120: jeq branches to `(cur + 1 + simm) umod 8192` on equality; negative sums by the spec's decision D10 (log 14), no
halt on itself by D18 (log 15). -/
def Obligations.JeqBranchesOnEquality : Prop :=
  ∀ (s : State) (ra rb : RegIdx) (imm : Imm7), ∃ t, exec (.jeq ra rb imm) s = .next t ∧
    (s.reg ra = s.reg rb → (t.pc.toNat : Int) = ((s.pc.toNat : Int) + 1 + imm.toInt) % 8192) ∧
    (s.reg ra ≠ s.reg rb → Advanced s t) ∧
    SameRegs s t ∧ t.halted = s.halted ∧ SameMemoryCachesEvents s t

/-- R122: of all instructions only lw and sw access memory and the caches and emit events (any other instruction gives the
same result whatever these hold, and leaves them); every immediate-class instruction advances pc but a taken jeq; and every
word of the five opcodes is an instruction of the class, with no unused bit. -/
def Obligations.OnlyLoadsAndStoresAccessMemoryAndCaches : Prop :=
  (∀ (i : Instr) (s : State), isLoadOrStore i = false → ∃ t, exec i s = .next t ∧
    t.mem = s.mem ∧ t.l1 = s.l1 ∧ t.l2 = s.l2 ∧ t.events = s.events ∧
    ∀ (mem' : Memory) (l1' : Level) (l2' : Option Level) (events' : List Event),
      exec i { s with mem := mem', l1 := l1', l2 := l2', events := events' } =
        .next { t with mem := mem', l1 := l1', l2 := l2', events := events' }) ∧
  (∀ (i : Instr) (s : State), isImmediate i = true → ∃ t, exec i s = .next t ∧
    (Advanced s t ∨ ∃ ra rb imm, i = .jeq ra rb imm ∧ s.reg ra = s.reg rb)) ∧
  (∀ (m : ImmOpcodeMap) (w : Word), opField w ∉ [0b000#3, 0b010#3, 0b011#3] →
    isImmediate (decode m w) = true ∧ encode m (decode m w) = w)

/-! ### The cache hierarchy -/

/-- R64: the decomposition of an address, for a valid descriptor. That row and tag determine the block is marked derived in
the rule. -/
def Obligations.RowAndTagDetermineTheBlock : Prop :=
  ∀ (d : Descriptor) (a b : Addr), d.valid = true →
    rowIndex d a < d.rowCount ∧ rowIndex d a = (a.toNat / d.blockSize) % d.rowCount ∧
    tagOf d a * d.rowCount + rowIndex d a = a.toNat / d.blockSize ∧
    (a.toNat / d.blockSize = b.toNat / d.blockSize ↔ rowIndex d a = rowIndex d b ∧ tagOf d a = tagOf d b)

/-- R63: what a valid descriptor is, and that it has at least one row (marked derived in the rule); a launch exists exactly
for a valid configuration and an image that fits (D22; log 11). -/
def Obligations.LaunchExistsExactlyForValidArguments : Prop :=
  (∀ d : Descriptor, (d.valid = true ↔
      1 ≤ d.size ∧ 1 ≤ d.assoc ∧ 1 ≤ d.blockSize ∧ d.assoc * d.blockSize ∣ d.size) ∧
    (d.valid = true → 1 ≤ d.rowCount ∧ d.rowCount * (d.assoc * d.blockSize) = d.size)) ∧
  ∀ (c : LaunchConfig) (image : List Word), (∃ s, State.launch c image = some s) ↔
    c.l1.valid = true ∧ (∀ d, c.l2 = some d → d.valid = true) ∧ c.pcReset.toNat < 8191 ∧
      c.regReset[0] = 0#16 ∧ image.length ≤ 8192

/-- R67: a lookup misses and leaves the row, or hits and moves one occurrence, the one nearest the head, to the tail; under
`all_occurrences` it removes every occurrence and appends one (the spec's decision D12; log 3). -/
def Obligations.LookupMovesTheTagToTheTail : Prop :=
  ∀ (p : LookupDup) (row : Row) (t : Tag),
    (t ∉ row → rowLookup p row t = (.miss, row)) ∧
    (t ∈ row → p = .firstOccurrence → ∃ before after, row = before ++ t :: after ∧ t ∉ before ∧
      rowLookup p row t = (.hit, before ++ after ++ [t])) ∧
    (t ∈ row → p = .allOccurrences → ∃ rest, rowLookup p row t = (.hit, rest ++ [t]) ∧ t ∉ rest ∧
      rest.Sublist row ∧ rest.length + row.count t = row.length ∧ ∀ u, u ≠ t → rest.count u = row.count u)

/-- R72: `CacheRead` on a well-formed level: what it reports, what becomes of the row, that no other row changes, and its one
event. -/
def Obligations.CacheReadClassifiesAndFillsTheRow : Prop :=
  ∀ (p : Params) (l : Level) (a : Addr), l.wf p →
    let r := (a.toNat / l.desc.blockSize) % l.desc.rowCount
    let t := a.toNat / l.desc.blockSize / l.desc.rowCount
    (l.readClass p a = .hit ↔ t ∈ l.row r) ∧
    (l.desc.assoc = 1 → (l.afterRead p a).row r = [t]) ∧
    (l.desc.assoc ≠ 1 → t ∈ l.row r → (l.afterRead p a).row r = (rowLookup p.lookupDup (l.row r) t).2) ∧
    (l.desc.assoc ≠ 1 → t ∉ l.row r → (l.row r).length < l.desc.assoc → (l.afterRead p a).row r = l.row r ++ [t]) ∧
    (l.desc.assoc ≠ 1 → t ∉ l.row r → ∀ lru rest, l.row r = lru :: rest → (l.row r).length = l.desc.assoc →
      (l.afterRead p a).row r = rest ++ [t]) ∧
    ((l.afterRead p a).row r).getLast? = some t ∧
    (∀ r', r' ≠ r → (l.afterRead p a).row r' = l.row r') ∧ (l.afterRead p a).desc = l.desc ∧
    (∀ s : State, s.l1 = l → s.params = p → s.readL1 a =
      { s with l1 := l.afterRead p a, events := s.events ++ [⟨.L1, (l.readClass p a).kind, s.pc, a, r⟩] }) ∧
    (∀ s : State, s.l2 = some l → s.params = p → s.readL2 l a =
      { s with l2 := some (l.afterRead p a), events := s.events ++ [⟨.L2, (l.readClass p a).kind, s.pc, a, r⟩] })

/-- R73 (`faithful_duplicate`) and R74 (`insert_on_miss`), both values of WRITE_POLICY (the spec's decision D11; log 3):
what `CacheWrite` does to its row, and that no other row changes. -/
def Obligations.CacheWriteFollowsTheWritePolicy : Prop :=
  ∀ (p : Params) (l : Level) (a : Addr), l.wf p →
    let r := (a.toNat / l.desc.blockSize) % l.desc.rowCount
    let t := a.toNat / l.desc.blockSize / l.desc.rowCount
    (l.desc.assoc = 1 → (l.afterWrite p a).row r = [t]) ∧
    (l.desc.assoc ≠ 1 → p.writePolicy = .faithfulDuplicate →
      (l.afterWrite p a).row r = rowInsert l.desc.assoc (rowLookup p.lookupDup (l.row r) t).2 t) ∧
    (p.writePolicy = .insertOnMiss → l.afterWrite p a = l.afterRead p a) ∧
    (∀ r', r' ≠ r → (l.afterWrite p a).row r' = l.row r') ∧ (l.afterWrite p a).desc = l.desc

/-- R84 (derived there): after any access the tag is at the tail of its row, and a load of that block is then a hit. -/
def Obligations.AnAccessedBlockIsMostRecentAndHitsNext : Prop :=
  ∀ (p : Params) (l : Level) (a b : Addr), l.wf p → blockId l.desc b = blockId l.desc a →
    ((l.afterRead p a).row (rowIndex l.desc a)).getLast? = some (tagOf l.desc a) ∧
    ((l.afterWrite p a).row (rowIndex l.desc a)).getLast? = some (tagOf l.desc a) ∧
    (l.afterRead p a).readClass p b = .hit ∧ (l.afterWrite p a).readClass p b = .hit

/-- R85 (derived there): accesses to different rows of a level commute. -/
def Obligations.AccessesToDifferentRowsCommute : Prop :=
  ∀ (p : Params) (l : Level) (a b : Addr), rowIndex l.desc a ≠ rowIndex l.desc b →
    (l.afterRead p a).afterRead p b = (l.afterRead p b).afterRead p a ∧
    (l.afterWrite p a).afterWrite p b = (l.afterWrite p b).afterWrite p a ∧
    (l.afterRead p a).afterWrite p b = (l.afterWrite p b).afterRead p a ∧
    (l.afterRead p a).readClass p b = l.readClass p b ∧ (l.afterWrite p a).readClass p b = l.readClass p b

/-- R80: a direct-mapped level. "A different address" is an address of a different block (derived in the rule). -/
def Obligations.DirectMappedHitsOnlyTheLastBlock : Prop :=
  ∀ (p : Params) (l : Level) (a b : Addr), l.wf p → l.desc.assoc = 1 → l.row (rowIndex l.desc a) = [] →
    rowIndex l.desc b = rowIndex l.desc a → blockId l.desc b ≠ blockId l.desc a →
    l.readClass p a = .miss ∧ (l.afterRead p a).readClass p a = .hit ∧ (l.afterWrite p a).readClass p a = .hit ∧
    (l.afterRead p a).readClass p b = .miss ∧
    ((l.afterRead p a).afterRead p b).row (rowIndex l.desc a) = [tagOf l.desc b] ∧
    ((l.afterRead p a).afterRead p b).readClass p a = .miss

/-- R81 (derived there for rows that start empty and accesses that are all loads): with associativity k, reading k distinct
tags and then a further one misses throughout and evicts the first, so that it misses again; but if the first tag is read
again before the further one arrives, it survives. The second half needs k at least 2: with one slot nothing survives (R69). -/
def Obligations.LeastRecentlyUsedTagIsEvicted : Prop :=
  ∀ (p : Params) (first : Tag) (others : List Tag) (further : Tag),
    (first :: others ++ [further]).Nodup →
    let k := (first :: others).length
    readTags p k [] (first :: others) = (List.replicate k .miss, first :: others) ∧
    (readTags p k [] (first :: others ++ [further, first])).1 = List.replicate (k + 2) .miss ∧
    (2 ≤ k → (readTags p k [] (first :: others ++ [first, further, first])).1 =
      List.replicate k .miss ++ [.hit, .miss, .hit])

/-- R75 (c) (derived there): under `faithful_duplicate` and `first_occurrence`, k writes to one block fill a row of
associativity k with its tag (decisions D11, D12; log 3). -/
def Obligations.RepeatedWritesFillTheRow : Prop :=
  ∀ (p : Params) (k : Nat) (row : Row) (t : Tag), p.writePolicy = .faithfulDuplicate → p.lookupDup = .firstOccurrence →
    2 ≤ k → row.length ≤ k → writeTagTimes p k t k row = List.replicate k t

/-- R76, R83: the events of a load and the levels after it. L1 is read; L2 is read exactly when L1 misses and there is an L2,
and an L1 hit leaves L2 as it is. -/
def Obligations.LoadFallsThroughToL2ExactlyOnAMiss : Prop :=
  ∀ (s : State) (ra rb : RegIdx) (imm : Imm7), ∃ t, exec (.lw ra rb imm) s = .next t ∧
    let ea := s.effectiveAddress ra imm
    let e1 : Event := ⟨.L1, (s.l1.readClass s.params ea).kind, s.pc, ea, (ea.toNat / s.l1.desc.blockSize) % s.l1.desc.rowCount⟩
    t.l1 = s.l1.afterRead s.params ea ∧
    (s.l1.readClass s.params ea = .hit → t.events = s.events ++ [e1] ∧ t.l2 = s.l2) ∧
    (s.l2 = none → t.events = s.events ++ [e1] ∧ t.l2 = none) ∧
    (∀ l, s.l2 = some l → s.l1.readClass s.params ea = .miss →
      t.l2 = some (l.afterRead s.params ea) ∧
      t.events = s.events ++ [e1, ⟨.L2, (l.readClass s.params ea).kind, s.pc, ea, (ea.toNat / l.desc.blockSize) % l.desc.rowCount⟩])

/-- R77: the events of a store and the levels after it: one SW event per level, L1 first, whatever the rows hold. -/
def Obligations.StoreEmitsOneSwEventPerLevel : Prop :=
  ∀ (s : State) (ra rb : RegIdx) (imm : Imm7), ∃ t, exec (.sw ra rb imm) s = .next t ∧
    let ea := s.effectiveAddress ra imm
    let e1 : Event := ⟨.L1, .sw, s.pc, ea, (ea.toNat / s.l1.desc.blockSize) % s.l1.desc.rowCount⟩
    t.l1 = s.l1.afterWrite s.params ea ∧
    (s.l2 = none → t.events = s.events ++ [e1] ∧ t.l2 = none) ∧
    (∀ l, s.l2 = some l → t.l2 = some (l.afterWrite s.params ea) ∧
      t.events = s.events ++ [e1, ⟨.L2, .sw, s.pc, ea, (ea.toNat / l.desc.blockSize) % l.desc.rowCount⟩])

/-- R82: after any sequence of instructions, a store, then any instructions none of which stores to its address, then a load of
that address: the load's register gets the word that was stored, whatever the caches classify (the store is the most recent one
to that address, as R40 asks). A load to register 0 writes nothing (R15). The premise is the memory's canonical form. -/
def Obligations.ALoadReturnsTheLastStoredWord : Prop :=
  ∀ (s s' t u v : State) (before between : List Instr) (ra rb ra' rb' : RegIdx) (imm imm' : Imm7), s.mem.wf →
    execList before s = .next s' → exec (.sw ra rb imm) s' = .next t →
    execList between t = .next u → NoStoreTo (s'.effectiveAddress ra imm) between t →
    u.effectiveAddress ra' imm' = s'.effectiveAddress ra imm → exec (.lw ra' rb' imm') u = .next v →
    RegWritten rb' (s'.reg rb).toNat u v

/-- R26, R39 (derived there): no cache state is an input to anything a program sees. Two valid machines that differ only in
their caches, events and cache parameters stay equal in registers, pc, memory and run status. -/
def Obligations.ProgramViewIsIndependentOfTheCaches : Prop :=
  ∀ (s s' t : State), SameProgramView s s' → s'.configValid = true → step s = .next t →
    ∃ t', step s' = .next t' ∧ SameProgramView t t'

/-! ### The step -/

/-- R87, R88, R93: when the word at pc decodes to i, the step of a running machine is the meaning of i, with register 0 forced
to 0 (R90) and the run ended at pc = 8191 (R92) afterwards. -/
def Obligations.StepRunsTheDecodedInstruction : Prop :=
  ∀ (s t : State) (i : Instr), s.configValid = true → s.halted = false →
    decode s.params.immOpcodeMap (s.readWord s.pc) = i → exec i s = .next t →
    ∃ u, step s = .next u ∧ u.reg zeroRegister = 0#16 ∧ (∀ r, r ≠ zeroRegister → u.reg r = t.reg r) ∧
      u.pc = t.pc ∧ u.mem = t.mem ∧ u.l1 = t.l1 ∧ u.l2 = t.l2 ∧ u.events = t.events ∧ u.params = t.params ∧
      (u.halted = true ↔ t.halted = true ∨ t.pc = lastAddress)

/-- R98 (derived there), R95: in a state of a valid configuration every step has a successor; in one of an invalid
configuration no step has (R63, D22; log 11). For a halted state R87 and R94 say that no step exists: that the model's step then
answers a next state, the state itself, is the model's choice (D16; log 10). -/
def Obligations.EveryValidStateHasASuccessor : Prop :=
  ∀ s : State, (s.configValid = true → ∃ t, step s = .next t) ∧ (s.configValid = false → ∀ t, step s ≠ .next t)

/-- The invariant (R15, R25, R63, R64, R66, R74, R92 and the canonical memory) is kept by every step. -/
def Obligations.StepKeepsTheInvariant : Prop :=
  ∀ s t : State, s.Inv → step s = .next t → t.Inv

/-- The invariant holds at reset. The reset values are the model's and the spec's choices (D13, D14, D15; log 2, 3, 7, 8). -/
def Obligations.ResetMeetsTheInvariant : Prop :=
  State.reset.Inv

/-- The invariant holds after every launch (R147), whatever the configuration and the image. -/
def Obligations.EveryLaunchMeetsTheInvariant : Prop :=
  ∀ (c : LaunchConfig) (image : List Word) (s : State), State.launch c image = some s → s.Inv

/-- R90 (on halting steps too: the spec's decision D26): register 0 reads 0 after every step of a running machine, from any
state. -/
def Obligations.RegisterZeroIsZeroAfterEveryStep : Prop :=
  ∀ s t : State, s.halted = false → step s = .next t → t.reg zeroRegister = 0#16

/-- R91, R92: a running machine ends its run exactly by a self-jump of opcode 010 or by reaching address 8191 (only opcode 010:
the spec's decision D18, log 15; the test after the step only: D17). -/
def Obligations.RunEndsOnlyBySelfJumpOrLastAddress : Prop :=
  ∀ s t : State, s.halted = false → step s = .next t →
    (t.halted = true ↔ decode s.params.immOpcodeMap (s.readWord s.pc) = .j s.pc ∨ t.pc = lastAddress)

/-- R94 (the spec's decision D16; log 10): a halted machine keeps its whole state, however long it is stepped. -/
def Obligations.HaltedMachineNeverChanges : Prop :=
  ∀ (s : State) (n : Nat), s.configValid = true → s.halted = true →
    runSteps n s = .next s

/-- R97: the event stream is the concatenation of each step's events, and within a step L1's event precedes L2's; a step has
none, one or two (R93), and each carries the address of its instruction. -/
def Obligations.EventsAreAppendedL1First : Prop :=
  ∀ s t : State, step s = .next t → ∃ es : List Event, t.events = s.events ++ es ∧
    es.map (fun e => e.id) ∈ [[], [CacheId.L1], [CacheId.L1, CacheId.L2]] ∧ ∀ e ∈ es, e.pc = s.pc

/-- R8, R23: no step changes the cache descriptors, the presence of L2 or the parameters (held in State by the model's choice,
log 1). -/
def Obligations.ConfigurationNeverChanges : Prop :=
  ∀ s t : State, step s = .next t → t.params = s.params ∧ t.l1.desc = s.l1.desc ∧
    t.l2.map (fun l => l.desc) = s.l2.map (fun l => l.desc)

/-- R43 (derived there): a store to the next address is fetched and executed by the very next step, the register stored being
the instruction. -/
def Obligations.AStoredWordIsFetchedAtOnce : Prop :=
  ∀ (s t : State) (ra rb : RegIdx) (imm : Imm7), s.mem.wf → s.halted = false →
    decode s.params.immOpcodeMap (s.readWord s.pc) = .sw ra rb imm → s.effectiveAddress ra imm = s.pc + 1#13 →
    step s = .next t → t.pc = s.pc + 1#13 ∧ t.readWord t.pc = s.reg rb ∧
      t.currentInstr = decode s.params.immOpcodeMap (s.reg rb)

/-- R91, R95: a taken jeq with displacement -1, of any two registers that hold the same value, does not halt and repeats for
ever, changing nothing (no halt: the spec's decision D18; log 15). -/
def Obligations.SelfBranchRunsForEver : Prop :=
  ∀ (s : State) (ra rb : RegIdx) (n : Nat), s.Inv → s.halted = false →
    decode s.params.immOpcodeMap (s.readWord s.pc) = .jeq ra rb 0x7F#7 → s.reg ra = s.reg rb →
    runSteps n s = .next s

/-- R148 (derived there): a machine with zero words from pc up to address 8190 executes no-ops and ends its run at 8191, with
nothing else changed. -/
def Obligations.ZeroWordsRunToTheLastAddress : Prop :=
  ∀ s : State, s.Inv → s.halted = false → (∀ a : Addr, s.pc.toNat ≤ a.toNat → a.toNat < 8191 → s.readWord a = 0#16) →
    runSteps (8191 - s.pc.toNat) s = .next { s with pc := lastAddress, halted := true }

/-! ### Reset -/

/-- R144, R145: after any launch, and at reset, every row of every level is empty, the machine runs and there is no event. -/
def Obligations.LaunchLeavesEmptyRowsAndARunningMachine : Prop :=
  (∀ (c : LaunchConfig) (image : List Word) (s : State), State.launch c image = some s →
    (∀ r, s.l1.row r = []) ∧ (∀ l, s.l2 = some l → ∀ r, l.row r = []) ∧ s.halted = false ∧ s.events = []) ∧
  (∀ r, State.reset.l1.row r = []) ∧ (∀ l, State.reset.l2 = some l → ∀ r, l.row r = []) ∧
    State.reset.halted = false ∧ State.reset.events = []

/-- R143 with the spec's decision D15 (log 8), and the launch arguments of R8 and R9: memory is the image followed by zeros,
pc and registers are PC_RESET and REG_RESET, and the levels are those of the configuration. -/
def Obligations.LaunchLoadsTheImageFollowedByZeros : Prop :=
  ∀ (c : LaunchConfig) (image : List Word) (s : State), State.launch c image = some s →
    (∀ a : Addr, s.readWord a = image.getD a.toNat 0#16) ∧ s.pc = c.pcReset ∧
    (∀ r : RegIdx, s.reg r = c.regReset[r.toNat]'r.isLt) ∧ s.l1.desc = c.l1 ∧
    s.l2.map (fun l => l.desc) = c.l2 ∧ s.params = c.params

/-- R141, R142 and 10_state.md section 8, with the defaults the spec decides (D13, D14, D15; log 7, log 8), the parameters at the
defaults of R9 (the spec's decisions D3, D5, D7, D8, D11, D12; log 3, log 5) and the cache configuration the model chooses for
reset, L1 = (8,2,2) without L2 (log 2): State.reset is the launch of the default configuration with an empty image. -/
def Obligations.ResetIsTheDefaultLaunch : Prop :=
  State.launch defaultLaunch [] = some State.reset ∧ State.reset.pc = 0#13 ∧ (∀ r, State.reset.reg r = 0#16) ∧
    (∀ a, State.reset.readWord a = 0#16) ∧
    State.reset.params = { writePolicy := .faithfulDuplicate, lookupDup := .firstOccurrence, roleMap := .docLiteral,
                           immOpcodeMap := .published, sltiCompare := .signed16, sltCompare := .unsigned16 } ∧
    State.reset.l1.desc = { size := 8, assoc := 2, blockSize := 2 } ∧ State.reset.l2 = none
end

