-- ==== Sys2Proof/Laws/State.lean ====
section
/-! SUPPORT. One lemma per field per update of the state, so that no later proof unfolds a record update. -/

namespace Sys2Proof.Machine

variable (s : State)

/-! ### Single updates -/

@[simp] theorem State.setPc_regs (t : Addr) : (s.setPc t).regs = s.regs := rfl
@[simp] theorem State.setPc_pc (t : Addr) : (s.setPc t).pc = t := rfl
@[simp] theorem State.setPc_mem (t : Addr) : (s.setPc t).mem = s.mem := rfl
@[simp] theorem State.setPc_l1 (t : Addr) : (s.setPc t).l1 = s.l1 := rfl
@[simp] theorem State.setPc_l2 (t : Addr) : (s.setPc t).l2 = s.l2 := rfl
@[simp] theorem State.setPc_halted (t : Addr) : (s.setPc t).halted = s.halted := rfl
@[simp] theorem State.setPc_events (t : Addr) : (s.setPc t).events = s.events := rfl
@[simp] theorem State.setPc_params (t : Addr) : (s.setPc t).params = s.params := rfl
@[simp] theorem State.setPc_reg (t : Addr) (r : RegIdx) : (s.setPc t).reg r = s.reg r := rfl
@[simp] theorem State.setPc_readWord (t : Addr) (b : Addr) : (s.setPc t).readWord b = s.readWord b := rfl

@[simp] theorem State.advance_regs : (s.advance).regs = s.regs := rfl
@[simp] theorem State.advance_pc : (s.advance).pc = s.pc + 1#13 := rfl
@[simp] theorem State.advance_mem : (s.advance).mem = s.mem := rfl
@[simp] theorem State.advance_l1 : (s.advance).l1 = s.l1 := rfl
@[simp] theorem State.advance_l2 : (s.advance).l2 = s.l2 := rfl
@[simp] theorem State.advance_halted : (s.advance).halted = s.halted := rfl
@[simp] theorem State.advance_events : (s.advance).events = s.events := rfl
@[simp] theorem State.advance_params : (s.advance).params = s.params := rfl
@[simp] theorem State.advance_reg (r : RegIdx) : (s.advance).reg r = s.reg r := rfl
@[simp] theorem State.advance_readWord (b : Addr) : (s.advance).readWord b = s.readWord b := rfl

@[simp] theorem State.halt_regs : (s.halt).regs = s.regs := rfl
@[simp] theorem State.halt_pc : (s.halt).pc = s.pc := rfl
@[simp] theorem State.halt_mem : (s.halt).mem = s.mem := rfl
@[simp] theorem State.halt_l1 : (s.halt).l1 = s.l1 := rfl
@[simp] theorem State.halt_l2 : (s.halt).l2 = s.l2 := rfl
@[simp] theorem State.halt_halted : (s.halt).halted = true := rfl
@[simp] theorem State.halt_events : (s.halt).events = s.events := rfl
@[simp] theorem State.halt_params : (s.halt).params = s.params := rfl
@[simp] theorem State.halt_reg (r : RegIdx) : (s.halt).reg r = s.reg r := rfl
@[simp] theorem State.halt_readWord (b : Addr) : (s.halt).readWord b = s.readWord b := rfl

@[simp] theorem State.writeWord_regs (a : Addr) (v : Word) : (s.writeWord a v).regs = s.regs := rfl
@[simp] theorem State.writeWord_pc (a : Addr) (v : Word) : (s.writeWord a v).pc = s.pc := rfl
@[simp] theorem State.writeWord_mem (a : Addr) (v : Word) : (s.writeWord a v).mem = s.mem.write a v := rfl
@[simp] theorem State.writeWord_l1 (a : Addr) (v : Word) : (s.writeWord a v).l1 = s.l1 := rfl
@[simp] theorem State.writeWord_l2 (a : Addr) (v : Word) : (s.writeWord a v).l2 = s.l2 := rfl
@[simp] theorem State.writeWord_halted (a : Addr) (v : Word) : (s.writeWord a v).halted = s.halted := rfl
@[simp] theorem State.writeWord_events (a : Addr) (v : Word) : (s.writeWord a v).events = s.events := rfl
@[simp] theorem State.writeWord_params (a : Addr) (v : Word) : (s.writeWord a v).params = s.params := rfl
@[simp] theorem State.writeWord_reg (a : Addr) (v : Word) (r : RegIdx) : (s.writeWord a v).reg r = s.reg r := rfl

@[simp] theorem State.emit_regs (e : Event) : (s.emit e).regs = s.regs := rfl
@[simp] theorem State.emit_pc (e : Event) : (s.emit e).pc = s.pc := rfl
@[simp] theorem State.emit_mem (e : Event) : (s.emit e).mem = s.mem := rfl
@[simp] theorem State.emit_l1 (e : Event) : (s.emit e).l1 = s.l1 := rfl
@[simp] theorem State.emit_l2 (e : Event) : (s.emit e).l2 = s.l2 := rfl
@[simp] theorem State.emit_halted (e : Event) : (s.emit e).halted = s.halted := rfl
@[simp] theorem State.emit_events (e : Event) : (s.emit e).events = s.events ++ [e] := rfl
@[simp] theorem State.emit_params (e : Event) : (s.emit e).params = s.params := rfl
@[simp] theorem State.emit_reg (e : Event) (r : RegIdx) : (s.emit e).reg r = s.reg r := rfl
@[simp] theorem State.emit_readWord (e : Event) (b : Addr) : (s.emit e).readWord b = s.readWord b := rfl

@[simp] theorem State.forceZero_regs : (s.forceZero).regs = s.regs.set 0 0#16 := rfl
@[simp] theorem State.forceZero_pc : (s.forceZero).pc = s.pc := rfl
@[simp] theorem State.forceZero_mem : (s.forceZero).mem = s.mem := rfl
@[simp] theorem State.forceZero_l1 : (s.forceZero).l1 = s.l1 := rfl
@[simp] theorem State.forceZero_l2 : (s.forceZero).l2 = s.l2 := rfl
@[simp] theorem State.forceZero_halted : (s.forceZero).halted = s.halted := rfl
@[simp] theorem State.forceZero_events : (s.forceZero).events = s.events := rfl
@[simp] theorem State.forceZero_params : (s.forceZero).params = s.params := rfl
@[simp] theorem State.forceZero_readWord (b : Addr) : (s.forceZero).readWord b = s.readWord b := rfl

/-! ### Writing a register -/

theorem State.setReg_zero (v : Word) : s.setReg zeroRegister v = s := rfl

@[simp] theorem State.setReg_pc (r : RegIdx) (v : Word) : (s.setReg r v).pc = s.pc := by
 unfold State.setReg; split <;> rfl
@[simp] theorem State.setReg_mem (r : RegIdx) (v : Word) : (s.setReg r v).mem = s.mem := by
 unfold State.setReg; split <;> rfl
@[simp] theorem State.setReg_l1 (r : RegIdx) (v : Word) : (s.setReg r v).l1 = s.l1 := by
 unfold State.setReg; split <;> rfl
@[simp] theorem State.setReg_l2 (r : RegIdx) (v : Word) : (s.setReg r v).l2 = s.l2 := by
 unfold State.setReg; split <;> rfl
@[simp] theorem State.setReg_halted (r : RegIdx) (v : Word) : (s.setReg r v).halted = s.halted := by
 unfold State.setReg; split <;> rfl
@[simp] theorem State.setReg_events (r : RegIdx) (v : Word) : (s.setReg r v).events = s.events := by
 unfold State.setReg; split <;> rfl
@[simp] theorem State.setReg_params (r : RegIdx) (v : Word) : (s.setReg r v).params = s.params := by
 unfold State.setReg; split <;> rfl
@[simp] theorem State.setReg_readWord (r : RegIdx) (v : Word) (b : Addr) : (s.setReg r v).readWord b = s.readWord b := by
 unfold State.setReg; split <;> rfl

@[simp] theorem State.setReg_reg_self (r : RegIdx) (v : Word) (h : r ≠ zeroRegister) : (s.setReg r v).reg r = v := by
  simp [State.setReg, State.reg, h]

@[simp] theorem State.setReg_reg_of_ne (r d : RegIdx) (v : Word) (h : r ≠ d) : (s.setReg d v).reg r = s.reg r := by
  have hn : d.toNat ≠ r.toNat := fun e => h (BitVec.eq_of_toNat_eq e.symm)
  unfold State.setReg
  split
  · rfl
  · simp [State.reg, hn]

@[simp] theorem State.forceZero_reg_zero : s.forceZero.reg zeroRegister = 0#16 := by
  simp [State.forceZero, State.reg]

@[simp] theorem State.forceZero_reg_of_ne (r : RegIdx) (h : r ≠ zeroRegister) : s.forceZero.reg r = s.reg r := by
  have hn : (0 : Nat) ≠ r.toNat := fun e => h (BitVec.eq_of_toNat_eq e.symm)
  simp [State.forceZero, State.reg, hn]

@[simp] theorem State.writeResult_pc (r : RegIdx) (v : Word) : (s.writeResult r v).pc = s.pc + 1#13 := by
 simp [State.writeResult]
@[simp] theorem State.writeResult_mem (r : RegIdx) (v : Word) : (s.writeResult r v).mem = s.mem := by
 simp [State.writeResult]
@[simp] theorem State.writeResult_l1 (r : RegIdx) (v : Word) : (s.writeResult r v).l1 = s.l1 := by
 simp [State.writeResult]
@[simp] theorem State.writeResult_l2 (r : RegIdx) (v : Word) : (s.writeResult r v).l2 = s.l2 := by
 simp [State.writeResult]
@[simp] theorem State.writeResult_halted (r : RegIdx) (v : Word) : (s.writeResult r v).halted = s.halted := by
 simp [State.writeResult]
@[simp] theorem State.writeResult_events (r : RegIdx) (v : Word) : (s.writeResult r v).events = s.events := by
 simp [State.writeResult]
@[simp] theorem State.writeResult_params (r : RegIdx) (v : Word) : (s.writeResult r v).params = s.params := by
 simp [State.writeResult]
@[simp] theorem State.writeResult_readWord (r : RegIdx) (v : Word) (b : Addr) : (s.writeResult r v).readWord b = s.readWord b := by
 simp [State.writeResult]

@[simp] theorem State.writeResult_reg (r d : RegIdx) (v : Word) : (s.writeResult d v).reg r = (s.setReg d v).reg r := by
  simp [State.writeResult]

/-! ### Cache accesses -/

@[simp] theorem State.readL1_regs (a : Addr) : (s.readL1 a).regs = s.regs := rfl
@[simp] theorem State.readL1_pc (a : Addr) : (s.readL1 a).pc = s.pc := rfl
@[simp] theorem State.readL1_mem (a : Addr) : (s.readL1 a).mem = s.mem := rfl
@[simp] theorem State.readL1_l1 (a : Addr) : (s.readL1 a).l1 = s.l1.afterRead s.params a := rfl
@[simp] theorem State.readL1_l2 (a : Addr) : (s.readL1 a).l2 = s.l2 := rfl
@[simp] theorem State.readL1_halted (a : Addr) : (s.readL1 a).halted = s.halted := rfl
@[simp] theorem State.readL1_events (a : Addr) : (s.readL1 a).events = s.events ++ [s.l1.readEvent s.params .L1 a s.pc] := rfl
@[simp] theorem State.readL1_params (a : Addr) : (s.readL1 a).params = s.params := rfl
@[simp] theorem State.readL1_reg (a : Addr) (r : RegIdx) : (s.readL1 a).reg r = s.reg r := rfl
@[simp] theorem State.readL1_readWord (a : Addr) (b : Addr) : (s.readL1 a).readWord b = s.readWord b := rfl

@[simp] theorem State.writeL1_regs (a : Addr) : (s.writeL1 a).regs = s.regs := rfl
@[simp] theorem State.writeL1_pc (a : Addr) : (s.writeL1 a).pc = s.pc := rfl
@[simp] theorem State.writeL1_mem (a : Addr) : (s.writeL1 a).mem = s.mem := rfl
@[simp] theorem State.writeL1_l1 (a : Addr) : (s.writeL1 a).l1 = s.l1.afterWrite s.params a := rfl
@[simp] theorem State.writeL1_l2 (a : Addr) : (s.writeL1 a).l2 = s.l2 := rfl
@[simp] theorem State.writeL1_halted (a : Addr) : (s.writeL1 a).halted = s.halted := rfl
@[simp] theorem State.writeL1_events (a : Addr) : (s.writeL1 a).events = s.events ++ [s.l1.writeEvent .L1 a s.pc] := rfl
@[simp] theorem State.writeL1_params (a : Addr) : (s.writeL1 a).params = s.params := rfl
@[simp] theorem State.writeL1_reg (a : Addr) (r : RegIdx) : (s.writeL1 a).reg r = s.reg r := rfl
@[simp] theorem State.writeL1_readWord (a : Addr) (b : Addr) : (s.writeL1 a).readWord b = s.readWord b := rfl

@[simp] theorem State.readL2_regs (l : Level) (a : Addr) : (s.readL2 l a).regs = s.regs := rfl
@[simp] theorem State.readL2_pc (l : Level) (a : Addr) : (s.readL2 l a).pc = s.pc := rfl
@[simp] theorem State.readL2_mem (l : Level) (a : Addr) : (s.readL2 l a).mem = s.mem := rfl
@[simp] theorem State.readL2_l1 (l : Level) (a : Addr) : (s.readL2 l a).l1 = s.l1 := rfl
@[simp] theorem State.readL2_l2 (l : Level) (a : Addr) : (s.readL2 l a).l2 = some (l.afterRead s.params a) := rfl
@[simp] theorem State.readL2_halted (l : Level) (a : Addr) : (s.readL2 l a).halted = s.halted := rfl
@[simp] theorem State.readL2_events (l : Level) (a : Addr) : (s.readL2 l a).events = s.events ++ [l.readEvent s.params .L2 a s.pc] := rfl
@[simp] theorem State.readL2_params (l : Level) (a : Addr) : (s.readL2 l a).params = s.params := rfl
@[simp] theorem State.readL2_reg (l : Level) (a : Addr) (r : RegIdx) : (s.readL2 l a).reg r = s.reg r := rfl
@[simp] theorem State.readL2_readWord (l : Level) (a : Addr) (b : Addr) : (s.readL2 l a).readWord b = s.readWord b := rfl

@[simp] theorem State.writeL2_regs (l : Level) (a : Addr) : (s.writeL2 l a).regs = s.regs := rfl
@[simp] theorem State.writeL2_pc (l : Level) (a : Addr) : (s.writeL2 l a).pc = s.pc := rfl
@[simp] theorem State.writeL2_mem (l : Level) (a : Addr) : (s.writeL2 l a).mem = s.mem := rfl
@[simp] theorem State.writeL2_l1 (l : Level) (a : Addr) : (s.writeL2 l a).l1 = s.l1 := rfl
@[simp] theorem State.writeL2_l2 (l : Level) (a : Addr) : (s.writeL2 l a).l2 = some (l.afterWrite s.params a) := rfl
@[simp] theorem State.writeL2_halted (l : Level) (a : Addr) : (s.writeL2 l a).halted = s.halted := rfl
@[simp] theorem State.writeL2_events (l : Level) (a : Addr) : (s.writeL2 l a).events = s.events ++ [l.writeEvent .L2 a s.pc] := rfl
@[simp] theorem State.writeL2_params (l : Level) (a : Addr) : (s.writeL2 l a).params = s.params := rfl
@[simp] theorem State.writeL2_reg (l : Level) (a : Addr) (r : RegIdx) : (s.writeL2 l a).reg r = s.reg r := rfl
@[simp] theorem State.writeL2_readWord (l : Level) (a : Addr) (b : Addr) : (s.writeL2 l a).readWord b = s.readWord b := rfl

@[simp] theorem State.loadPath_regs (a : Addr) : (s.loadPath a).regs = s.regs := by
 unfold State.loadPath; split <;> rfl
@[simp] theorem State.loadPath_pc (a : Addr) : (s.loadPath a).pc = s.pc := by
 unfold State.loadPath; split <;> rfl
@[simp] theorem State.loadPath_mem (a : Addr) : (s.loadPath a).mem = s.mem := by
 unfold State.loadPath; split <;> rfl
@[simp] theorem State.loadPath_l1 (a : Addr) : (s.loadPath a).l1 = s.l1.afterRead s.params a := by
 unfold State.loadPath; split <;> rfl
@[simp] theorem State.loadPath_halted (a : Addr) : (s.loadPath a).halted = s.halted := by
 unfold State.loadPath; split <;> rfl
@[simp] theorem State.loadPath_params (a : Addr) : (s.loadPath a).params = s.params := by
 unfold State.loadPath; split <;> rfl
@[simp] theorem State.loadPath_reg (a : Addr) (r : RegIdx) : (s.loadPath a).reg r = s.reg r := by
 unfold State.loadPath; split <;> rfl
@[simp] theorem State.loadPath_readWord (a : Addr) (b : Addr) : (s.loadPath a).readWord b = s.readWord b := by
 unfold State.loadPath; split <;> rfl

@[simp] theorem State.storePath_regs (a : Addr) : (s.storePath a).regs = s.regs := by
 unfold State.storePath; split <;> rfl
@[simp] theorem State.storePath_pc (a : Addr) : (s.storePath a).pc = s.pc := by
 unfold State.storePath; split <;> rfl
@[simp] theorem State.storePath_mem (a : Addr) : (s.storePath a).mem = s.mem := by
 unfold State.storePath; split <;> rfl
@[simp] theorem State.storePath_l1 (a : Addr) : (s.storePath a).l1 = s.l1.afterWrite s.params a := by
 unfold State.storePath; split <;> rfl
@[simp] theorem State.storePath_halted (a : Addr) : (s.storePath a).halted = s.halted := by
 unfold State.storePath; split <;> rfl
@[simp] theorem State.storePath_params (a : Addr) : (s.storePath a).params = s.params := by
 unfold State.storePath; split <;> rfl
@[simp] theorem State.storePath_reg (a : Addr) (r : RegIdx) : (s.storePath a).reg r = s.reg r := by
 unfold State.storePath; split <;> rfl
@[simp] theorem State.storePath_readWord (a : Addr) (b : Addr) : (s.storePath a).readWord b = s.readWord b := by
 unfold State.storePath; split <;> rfl

/-! ### The end of a step -/

@[simp] theorem State.stopAtLast_regs : (s.stopAtLast).regs = s.regs := by
 unfold State.stopAtLast; split <;> rfl
@[simp] theorem State.stopAtLast_pc : (s.stopAtLast).pc = s.pc := by
 unfold State.stopAtLast; split <;> rfl
@[simp] theorem State.stopAtLast_mem : (s.stopAtLast).mem = s.mem := by
 unfold State.stopAtLast; split <;> rfl
@[simp] theorem State.stopAtLast_l1 : (s.stopAtLast).l1 = s.l1 := by
 unfold State.stopAtLast; split <;> rfl
@[simp] theorem State.stopAtLast_l2 : (s.stopAtLast).l2 = s.l2 := by
 unfold State.stopAtLast; split <;> rfl
@[simp] theorem State.stopAtLast_events : (s.stopAtLast).events = s.events := by
 unfold State.stopAtLast; split <;> rfl
@[simp] theorem State.stopAtLast_params : (s.stopAtLast).params = s.params := by
 unfold State.stopAtLast; split <;> rfl
@[simp] theorem State.stopAtLast_reg (r : RegIdx) : (s.stopAtLast).reg r = s.reg r := by
 unfold State.stopAtLast; split <;> rfl
@[simp] theorem State.stopAtLast_readWord (b : Addr) : (s.stopAtLast).readWord b = s.readWord b := by
 unfold State.stopAtLast; split <;> rfl

@[simp] theorem State.stopAtLast_halted : s.stopAtLast.halted = (s.halted || decide (s.pc = lastAddress)) := by
  unfold State.stopAtLast; split <;> simp_all

@[simp] theorem State.retire_regs : (s.retire).regs = s.regs.set 0 0#16 := by
 simp [State.retire]
@[simp] theorem State.retire_pc : (s.retire).pc = s.pc := by
 simp [State.retire]
@[simp] theorem State.retire_mem : (s.retire).mem = s.mem := by
 simp [State.retire]
@[simp] theorem State.retire_l1 : (s.retire).l1 = s.l1 := by
 simp [State.retire]
@[simp] theorem State.retire_l2 : (s.retire).l2 = s.l2 := by
 simp [State.retire]
@[simp] theorem State.retire_halted : s.retire.halted = (s.halted || decide (s.pc = lastAddress)) :=
  State.stopAtLast_halted s.forceZero
@[simp] theorem State.retire_events : (s.retire).events = s.events := by
 simp [State.retire]
@[simp] theorem State.retire_params : (s.retire).params = s.params := by
 simp [State.retire]
@[simp] theorem State.retire_readWord (b : Addr) : (s.retire).readWord b = s.readWord b := by
 simp [State.retire]

@[simp] theorem State.retire_reg_zero : s.retire.reg zeroRegister = 0#16 := by
  simp [State.retire]

@[simp] theorem State.retire_reg_of_ne (r : RegIdx) (h : r ≠ zeroRegister) : s.retire.reg r = s.reg r := by
  simp [State.retire, h]

end Sys2Proof.Machine
end

