-- ==== Sys2Proof/Laws/Cache.lean ====
section
/-! SUPPORT. The cache: what a row operation can do to a row, what an access can do to a level, and what the load and store
paths can do to the state. -/

namespace Sys2Proof.Machine

/-! ### Rows -/

@[simp] theorem rowLookup_of_not_mem (p : LookupDup) (row : Row) (t : Tag) (h : t ∉ row) :
    rowLookup p row t = (.miss, row) := by simp [rowLookup, h]

@[simp] theorem rowLookup_class_of_mem (p : LookupDup) (row : Row) (t : Tag) (h : t ∈ row) :
    (rowLookup p row t).1 = .hit := by cases p <;> simp [rowLookup, h]

@[simp] theorem rowLookup_first (row : Row) (t : Tag) (h : t ∈ row) :
    (rowLookup .firstOccurrence row t) = (.hit, row.erase t ++ [t]) := by simp [rowLookup, h]

@[simp] theorem rowLookup_all (row : Row) (t : Tag) (h : t ∈ row) :
    (rowLookup .allOccurrences row t) = (.hit, row.filter (fun u => decide (u ≠ t)) ++ [t]) := by simp [rowLookup, h]

/-- A lookup hit keeps a row's bounds: it does not lengthen it, adds no tag, doubles none, and leaves the tag at the tail. -/
theorem rowLookup_hit_spec (p : LookupDup) (row : Row) (t : Tag) (h : t ∈ row) :
    ∃ rest, (rowLookup p row t).2 = rest ++ [t] ∧ rest.length + 1 ≤ row.length ∧ rest.Sublist row ∧
      (row.Nodup → t ∉ rest) := by
  cases p with
  | firstOccurrence =>
    refine ⟨row.erase t, by simp [h], ?_, List.erase_sublist, fun hn => hn.not_mem_erase⟩
    have := List.length_erase_of_mem h
    have := List.length_pos_of_mem h
    omega
  | allOccurrences =>
    refine ⟨row.filter (fun u => decide (u ≠ t)), by simp [h], ?_, List.filter_sublist, fun _ => by simp⟩
    have := List.length_filter_lt_length_iff_exists (p := fun u => decide (u ≠ t)) (l := row) |>.2 ⟨t, h, by simp⟩
    omega

@[simp] theorem rowInsert_of_length_lt (assoc : Nat) (row : Row) (t : Tag) (h : row.length < assoc) :
    rowInsert assoc row t = row ++ [t] := by simp [rowInsert, Nat.not_le.2 h]

@[simp] theorem rowInsert_of_le_length (assoc : Nat) (row : Row) (t : Tag) (h : assoc ≤ row.length) :
    rowInsert assoc row t = row.tail ++ [t] := by simp [rowInsert, h]

/-- An insert keeps a row within its capacity and leaves the tag at the tail; it evicts at most the head. -/
theorem rowInsert_spec (assoc : Nat) (row : Row) (t : Tag) (ha : 1 ≤ assoc) (h : row.length ≤ assoc) :
    ∃ rest, rowInsert assoc row t = rest ++ [t] ∧ rest.length + 1 ≤ assoc ∧ rest.Sublist row := by
  by_cases hl : row.length < assoc
  · exact ⟨row, by simp [hl], by omega, List.Sublist.refl _⟩
  · refine ⟨row.tail, by simp [Nat.not_lt.1 hl], ?_, List.tail_sublist row⟩
    simp only [List.length_tail]
    omega

theorem rowRead_direct (p : Params) (row : Row) (t : Tag) : rowRead p 1 row t = rowDirectReplace row t := by
  simp [rowRead]

theorem rowRead_of_mem (p : Params) (assoc : Nat) (row : Row) (t : Tag) (ha : assoc ≠ 1) (h : t ∈ row) :
    rowRead p assoc row t = (.hit, (rowLookup p.lookupDup row t).2) := by
  cases hp : p.lookupDup <;> simp [rowRead, ha, h, hp]

theorem rowRead_of_not_mem (p : Params) (assoc : Nat) (row : Row) (t : Tag) (ha : assoc ≠ 1) (h : t ∉ row) :
    rowRead p assoc row t = (.miss, rowInsert assoc row t) := by
  simp [rowRead, ha, h]

theorem rowWrite_direct (p : Params) (row : Row) (t : Tag) : rowWrite p 1 row t = [t] := by
  by_cases h : row = [t] <;> simp [rowWrite, rowDirectReplace, h]

theorem rowWrite_faithful (p : Params) (assoc : Nat) (row : Row) (t : Tag) (ha : assoc ≠ 1)
    (h : p.writePolicy = .faithfulDuplicate) :
    rowWrite p assoc row t = rowInsert assoc (rowLookup p.lookupDup row t).2 t := by
  simp [rowWrite, ha, h]

theorem rowDirectReplace_row (row : Row) (t : Tag) : (rowDirectReplace row t).2 = [t] := by
  unfold rowDirectReplace
  split <;> rfl

/-- The bounds of a row that an access leaves: within capacity, the tag at the tail after tags the row held, and none twice
where none was. -/
theorem rowRead_spec (p : Params) (assoc : Nat) (row : Row) (t : Tag) (ha : 1 ≤ assoc) (h : row.length ≤ assoc) :
    ∃ rest, (rowRead p assoc row t).2 = rest ++ [t] ∧ rest.length + 1 ≤ assoc ∧ rest.Sublist row ∧
      (row.Nodup → t ∉ rest) := by
  by_cases h1 : assoc = 1
  · subst h1
    exact ⟨[], by simp [rowRead_direct, rowDirectReplace_row], by simp, List.nil_sublist _, by simp⟩
  · by_cases ht : t ∈ row
    · obtain ⟨rest, h2, h3, h4, h5⟩ := rowLookup_hit_spec p.lookupDup row t ht
      exact ⟨rest, by rw [rowRead_of_mem p assoc row t h1 ht, h2], by omega, h4, h5⟩
    · obtain ⟨rest, h2, h3, h4⟩ := rowInsert_spec assoc row t ha h
      exact ⟨rest, by rw [rowRead_of_not_mem p assoc row t h1 ht, h2], h3, h4, fun _ hm => ht (h4.subset hm)⟩

/-- The bounds of a row that a `faithful_duplicate` write leaves. -/
theorem rowWrite_faithful_spec (p : Params) (assoc : Nat) (row : Row) (t : Tag) (ha : 1 ≤ assoc) (h : row.length ≤ assoc)
    (hp : p.writePolicy = .faithfulDuplicate) :
    ∃ rest, rowWrite p assoc row t = rest ++ [t] ∧ rest.length + 1 ≤ assoc ∧ ∀ u ∈ rest, u ∈ row := by
  by_cases h1 : assoc = 1
  · subst h1
    exact ⟨[], by simp [rowWrite_direct], by simp, by simp⟩
  · rw [rowWrite_faithful p assoc row t h1 hp]
    by_cases ht : t ∈ row
    · obtain ⟨rest, h2, h3, h4, -⟩ := rowLookup_hit_spec p.lookupDup row t ht
      obtain ⟨rest', h5, h6, h7⟩ := rowInsert_spec assoc (rest ++ [t]) t ha (by simp; omega)
      refine ⟨rest', by rw [h2, h5], h6, fun u hu => ?_⟩
      rcases List.mem_append.1 (h7.subset hu) with hu | hu
      · exact h4.subset hu
      · rw [List.mem_singleton.1 hu]; exact ht
    · obtain ⟨rest, h5, h6, h7⟩ := rowInsert_spec assoc row t ha h
      exact ⟨rest, by rw [rowLookup_of_not_mem _ _ _ ht, h5], h6, fun u hu => h7.subset hu⟩

/-! ### Levels -/

@[simp] theorem Level.setRow_desc (l : Level) (r : Nat) (row : Row) : (l.setRow r row).desc = l.desc := rfl

@[simp] theorem Level.setRow_length (l : Level) (r : Nat) (row : Row) : (l.setRow r row).rows.length = l.rows.length := by
  simp [Level.setRow]

@[simp] theorem Level.row_setRow_same (l : Level) (r : Nat) (row : Row) (h : r < l.rows.length) :
    (l.setRow r row).row r = row := by simp [Level.setRow, Level.row, h]

@[simp] theorem Level.row_setRow_ne (l : Level) (r r' : Nat) (row : Row) (h : r' ≠ r) :
    (l.setRow r row).row r' = l.row r' := by simp [Level.setRow, Level.row, h.symm]

@[simp] theorem Level.afterRead_desc (p : Params) (l : Level) (a : Addr) : (l.afterRead p a).desc = l.desc := rfl

@[simp] theorem Level.afterWrite_desc (p : Params) (l : Level) (a : Addr) : (l.afterWrite p a).desc = l.desc := rfl

@[simp] theorem Level.afterRead_length (p : Params) (l : Level) (a : Addr) :
    (l.afterRead p a).rows.length = l.rows.length := by simp [Level.afterRead]

@[simp] theorem Level.afterWrite_length (p : Params) (l : Level) (a : Addr) :
    (l.afterWrite p a).rows.length = l.rows.length := by simp [Level.afterWrite]

theorem Level.afterRead_row (p : Params) (l : Level) (a : Addr) (h : rowIndex l.desc a < l.rows.length) :
    (l.afterRead p a).row (rowIndex l.desc a) =
      (rowRead p l.desc.assoc (l.row (rowIndex l.desc a)) (tagOf l.desc a)).2 := by
  simp [Level.afterRead, h]

theorem Level.afterWrite_row (p : Params) (l : Level) (a : Addr) (h : rowIndex l.desc a < l.rows.length) :
    (l.afterWrite p a).row (rowIndex l.desc a) =
      rowWrite p l.desc.assoc (l.row (rowIndex l.desc a)) (tagOf l.desc a) := by
  simp [Level.afterWrite, h]

theorem Level.afterRead_row_ne (p : Params) (l : Level) (a : Addr) (r : Nat) (h : r ≠ rowIndex l.desc a) :
    (l.afterRead p a).row r = l.row r := by simp [Level.afterRead, h]

theorem Level.afterWrite_row_ne (p : Params) (l : Level) (a : Addr) (r : Nat) (h : r ≠ rowIndex l.desc a) :
    (l.afterWrite p a).row r = l.row r := by simp [Level.afterWrite, h]

@[simp] theorem Level.row_reset (d : Descriptor) (r : Nat) : (Level.reset d).row r = [] := by
  by_cases h : r < d.rowCount <;> simp [Level.reset, Level.row, emptyRows, h]

/-! ### Descriptors -/

theorem descriptor_valid_spec (d : Descriptor) (h : d.valid = true) :
    1 ≤ d.size ∧ 1 ≤ d.assoc ∧ 1 ≤ d.blockSize ∧ d.assoc * d.blockSize ∣ d.size := by
  simp only [Descriptor.valid, Bool.and_eq_true, decide_eq_true_eq] at h
  exact ⟨h.1.1.1, h.1.1.2, h.1.2, Nat.dvd_of_mod_eq_zero h.2⟩

theorem descriptor_rowCount_pos (d : Descriptor) (h : d.valid = true) : 0 < d.rowCount := by
  obtain ⟨h1, h2, h3, h4⟩ := descriptor_valid_spec d h
  exact Nat.div_pos (Nat.le_of_dvd h1 h4) (Nat.mul_pos h2 h3)

theorem rowIndex_lt (d : Descriptor) (a : Addr) (h : d.valid = true) : rowIndex d a < d.rowCount :=
  Nat.mod_lt _ (descriptor_rowCount_pos d h)

/-! ### The load and store paths -/

/-- What the load path can do: L1 alone, on an L1 hit or without an L2; both levels otherwise (R76). -/
theorem State.loadPath_cases (s : State) (a : Addr) :
    (s.loadPath a = s.readL1 a ∧ (s.l1.readClass s.params a = .hit ∨ s.l2 = none)) ∨
      ∃ l, s.l2 = some l ∧ s.l1.readClass s.params a = .miss ∧ s.loadPath a = (s.readL1 a).readL2 l a := by
  unfold State.loadPath
  cases hc : s.l1.readClass s.params a <;> cases hl : s.l2 <;> simp

/-- What the store path can do: every level there is, L1 first (R77). -/
theorem State.storePath_cases (s : State) (a : Addr) :
    (s.l2 = none ∧ s.storePath a = s.writeL1 a) ∨
      ∃ l, s.l2 = some l ∧ s.storePath a = (s.writeL1 a).writeL2 l a := by
  unfold State.storePath
  cases hl : s.l2 <;> simp

end Sys2Proof.Machine
end

