-- ==== Sys2Proof/Laws/Memory.lean ====
section
/-! SUPPORT. The memory: a read after a write, and the canonical form that every memory operation keeps. -/

namespace Sys2Proof.Machine

theorem Memory.readCell_writeCell_same (m : Memory) (hm : m.Pairwise (fun c d => c.1 < d.1)) (k : Nat) (v : Word) :
    (m.writeCell k v).readCell k = v := by
  have absent : ∀ (l : Memory), (∀ c ∈ l, k < c.1) → l.readCell k = unwrittenWord := by
    intro l
    induction l with
    | nil => intro _; rfl
    | cons c l ih =>
      intro h
      have hc := h c (by simp)
      simp [Memory.readCell, show c.1 ≠ k by omega, ih (fun d hd => h d (by simp [hd]))]
  induction m with
  | nil => by_cases hv : v = unwrittenWord <;> simp [Memory.writeCell, Memory.readCell, hv]
  | cons c m ih =>
    obtain ⟨a, w⟩ := c
    obtain ⟨hlt, hp⟩ := List.pairwise_cons.1 hm
    by_cases h1 : k < a
    · by_cases hv : v = unwrittenWord
      · have := absent ((a, w) :: m) (by
          intro d hd
          rcases List.mem_cons.1 hd with rfl | hd
          · exact h1
          · exact h1.trans (hlt d hd))
        simpa [Memory.writeCell, h1, hv] using this
      · simp [Memory.writeCell, h1, hv, Memory.readCell]
    · by_cases h2 : k = a
      · subst h2
        by_cases hv : v = unwrittenWord
        · simpa [Memory.writeCell, hv] using absent m hlt
        · simp [Memory.writeCell, hv, Memory.readCell]
      · simp [Memory.writeCell, h1, h2, Memory.readCell, Ne.symm h2, ih hp]

theorem Memory.readCell_writeCell_ne (m : Memory) (k j : Nat) (v : Word) (h : j ≠ k) :
    (m.writeCell k v).readCell j = m.readCell j := by
  induction m with
  | nil => by_cases hv : v = unwrittenWord <;> simp [Memory.writeCell, Memory.readCell, hv, h.symm]
  | cons c m ih =>
    obtain ⟨a, w⟩ := c
    by_cases h1 : k < a
    · by_cases hv : v = unwrittenWord <;> simp [Memory.writeCell, h1, hv, Memory.readCell, h.symm]
    · by_cases h2 : k = a
      · subst h2
        by_cases hv : v = unwrittenWord <;> simp [Memory.writeCell, hv, Memory.readCell, h.symm]
      · rw [Memory.writeCell, if_neg h1, if_neg h2, Memory.readCell, Memory.readCell, ih]

theorem Memory.mem_writeCell (m : Memory) (k : Nat) (v : Word) (c : Cell) (hc : c ∈ m.writeCell k v) :
    c ∈ m ∨ (c = (k, v) ∧ v ≠ unwrittenWord) := by
  induction m with
  | nil => by_cases hv : v = unwrittenWord <;> simp_all [Memory.writeCell]
  | cons d m ih =>
    obtain ⟨a, w⟩ := d
    by_cases h1 : k < a
    · by_cases hv : v = unwrittenWord <;> simp_all [Memory.writeCell]
      tauto
    · by_cases h2 : k = a
      · by_cases hv : v = unwrittenWord <;> simp_all [Memory.writeCell]
        tauto
      · simp only [Memory.writeCell, h1, h2, if_false, List.mem_cons] at hc
        rcases hc with rfl | hc
        · simp
        · rcases ih hc with h | h <;> simp [h]

theorem Memory.pairwise_writeCell (m : Memory) (hm : m.Pairwise (fun c d => c.1 < d.1)) (k : Nat) (v : Word) :
    (m.writeCell k v).Pairwise (fun c d => c.1 < d.1) := by
  induction m with
  | nil => by_cases hv : v = unwrittenWord <;> simp [Memory.writeCell, hv]
  | cons c m ih =>
    obtain ⟨a, w⟩ := c
    obtain ⟨hlt, hp⟩ := List.pairwise_cons.1 hm
    by_cases h1 : k < a
    · by_cases hv : v = unwrittenWord
      · rw [Memory.writeCell, if_pos h1, if_pos hv]; exact hm
      · simp only [Memory.writeCell, h1, hv, if_true, if_false, List.pairwise_cons, List.mem_cons]
        exact ⟨by rintro d (rfl | hd); exacts [h1, h1.trans (hlt d hd)], hlt, hp⟩
    · by_cases h2 : k = a
      · subst h2
        by_cases hv : v = unwrittenWord
        · simpa [Memory.writeCell, hv] using hp
        · rw [Memory.writeCell, if_neg h1, if_pos rfl, if_neg hv]
          exact List.pairwise_cons.2 ⟨hlt, hp⟩
      · simp only [Memory.writeCell, h1, h2, if_false, List.pairwise_cons]
        refine ⟨fun d hd => ?_, ih hp⟩
        rcases Memory.mem_writeCell m k v d hd with h | ⟨rfl, -⟩
        · exact hlt d h
        · show a < k
          omega

/-- A write keeps the canonical form. -/
theorem Memory.wf_write (m : Memory) (hm : m.wf) (a : Addr) (v : Word) : (m.write a v).wf := by
  refine ⟨Memory.pairwise_writeCell m hm.1 _ v, fun c hc => ?_⟩
  rcases Memory.mem_writeCell m a.toNat v c hc with h | ⟨rfl, hv⟩
  · exact hm.2 c h
  · exact ⟨a.isLt, hv⟩

/-- A read after a write to the same address gives the word written. -/
theorem Memory.read_write_same (m : Memory) (hm : m.wf) (a : Addr) (v : Word) : (m.write a v).read a = v :=
  Memory.readCell_writeCell_same m hm.1 _ v

/-- A write leaves every other address alone. -/
theorem Memory.read_write_ne (m : Memory) (a b : Addr) (v : Word) (h : b ≠ a) : (m.write a v).read b = m.read b :=
  Memory.readCell_writeCell_ne m _ _ v (fun e => h (BitVec.eq_of_toNat_eq e))

theorem State.readWord_writeWord_same (s : State) (hm : s.mem.wf) (a : Addr) (v : Word) :
    (s.writeWord a v).readWord a = v := Memory.read_write_same s.mem hm a v

theorem State.readWord_writeWord_ne (s : State) (a b : Addr) (v : Word) (h : b ≠ a) :
    (s.writeWord a v).readWord b = s.readWord b := Memory.read_write_ne s.mem a b v h

theorem imageCells_bounds (ws : List Word) (a : Nat) (c : Cell) (hc : c ∈ imageCells a ws) :
    a ≤ c.1 ∧ c.1 < a + ws.length ∧ c.2 ≠ unwrittenWord := by
  induction ws generalizing a with
  | nil => simp [imageCells] at hc
  | cons w ws ih =>
    have tail : c ∈ imageCells (a + 1) ws → a ≤ c.1 ∧ c.1 < a + (w :: ws).length ∧ c.2 ≠ unwrittenWord := by
      intro h
      obtain ⟨h1, h2, h3⟩ := ih (a + 1) h
      exact ⟨by omega, by simp only [List.length_cons]; omega, h3⟩
    by_cases hw : w = unwrittenWord
    · exact tail (by simpa [imageCells, hw] using hc)
    · simp only [imageCells, hw, if_false, List.mem_cons] at hc
      rcases hc with rfl | hc
      · exact ⟨le_refl _, by simp, hw⟩
      · exact tail hc

/-- A program image is laid out in canonical form. -/
theorem imageCells_wf (ws : List Word) (h : ws.length ≤ memSize) : (imageCells 0 ws).wf := by
  have pw : ∀ (ws : List Word) (a : Nat), (imageCells a ws).Pairwise (fun c d => c.1 < d.1) := by
    intro ws
    induction ws with
    | nil => simp [imageCells]
    | cons w ws ih =>
      intro a
      by_cases hw : w = unwrittenWord
      · simpa [imageCells, hw] using ih (a + 1)
      · simp only [imageCells, hw, if_false, List.pairwise_cons]
        refine ⟨fun d hd => ?_, ih (a + 1)⟩
        have := (imageCells_bounds ws (a + 1) d hd).1
        show a < d.1
        omega
  refine ⟨pw ws 0, fun c hc => ?_⟩
  obtain ⟨-, h2, h3⟩ := imageCells_bounds ws 0 c hc
  exact ⟨by omega, h3⟩

end Sys2Proof.Machine
end

