-- ==== Sys2Proof/Laws/Step.lean ====
section
/-! SUPPORT. What a step can do, said once, and where the placed instruction word goes. -/

namespace Sys2Proof.Machine

/-- A step answers a next state only for a valid configuration: the state itself when the run has ended, and otherwise the
retired result of the current instruction (R87 to R94). -/
theorem step_next_cases (s t : State) (h : step s = .next t) :
    s.configValid = true ∧ ((s.halted = true ∧ t = s) ∨
      (s.halted = false ∧ ∃ u, exec s.currentInstr s = .next u ∧ t = u.retire)) := by
  unfold step cycle at h
  split at h
  · cases h
  · rename_i hc
    refine ⟨by simpa using hc, ?_⟩
    split at h
    · rename_i hh
      exact .inl ⟨hh, by cases h; rfl⟩
    · rename_i hh
      refine .inr ⟨by simpa using hh, ?_⟩
      unfold runCycle at h
      split at h
      · rename_i u hu
        exact ⟨u, hu, by cases h; rfl⟩
      · cases h
      · cases h

/-- A running machine of a valid configuration retires what its current instruction gives. -/
theorem step_of_exec (s t : State) (hc : s.configValid = true) (hh : s.halted = false)
    (h : exec s.currentInstr s = .next t) : step s = .next t.retire := by
  simp [step, cycle, hc, hh, runCycle, h]

theorem step_of_halted (s : State) (hc : s.configValid = true) (hh : s.halted = true) : step s = .next s := by
  simp [step, cycle, hc, hh]

/-- The configuration of an invariant state is valid. -/
theorem State.configValid_of_inv (s : State) (h : s.Inv) : s.configValid = true := by
  obtain ⟨-, -, h1, h2, -⟩ := h
  unfold State.configValid
  cases hl : s.l2 with
  | none => simp [h1.1]
  | some l => simp [h1.1, (h2 l (by simp [hl])).1]

/-- The placed word is the next instruction: the one that decodeTableWord reads, where the machine decodes by the pairing of
the opcode table. -/
theorem State.withFetchWord_currentInstr (s : State) (hm : s.mem.wf) (nbits w : Nat) (i : Instr)
    (hp : s.params.immOpcodeMap = tableImmOpcodeMap) (h : decodeTableWord nbits w = some i) :
    (s.withFetchWord nbits w).currentInstr = i := by
  unfold decodeTableWord at h
  split at h
  · have hw : (s.withFetchWord nbits w).fetch = BitVec.ofNat 16 (w % 2 ^ nbits) :=
      Memory.read_write_same s.mem hm s.pc _
    unfold State.currentInstr
    rw [hw]
    show decode s.params.immOpcodeMap _ = i
    rw [hp]
    exact Option.some.inj h
  · cases h

end Sys2Proof.Machine
end

