-- ==== Sys2Proof/Laws/Exec.lean ====
section
/-! SUPPORT. What the shared operations of the meanings do, in the terms of Sys2Proof/Safety.lean. -/

namespace Sys2Proof.Machine

theorem advanced_of_pc (s t : State) (h : t.pc = s.pc + 1#13) : Advanced s t := by
  simp [Advanced, h, BitVec.toNat_add, memSize]

/-- Writing a result register and advancing does that and nothing else. -/
theorem writeResult_writesRegister (s : State) (d : RegIdx) (v : Word) (n : Nat) (h : v.toNat = n) :
    WritesRegister d n s (s.writeResult d v) := by
  refine ⟨⟨fun hd => by simp [hd, h], ?_, fun r hr => by simp [hr]⟩, advanced_of_pc _ _ (by simp), by simp,
    by simp [SameMemoryCachesEvents]⟩
  rintro rfl r
  simp [State.setReg_zero]

/-- Two states with the same registers have the same registers after the same write. -/
theorem setReg_reg_congr (s t : State) (h : ∀ r, t.reg r = s.reg r) (d r : RegIdx) (v : Word) :
    (t.setReg d v).reg r = (s.setReg d v).reg r := by
  by_cases hd : d = zeroRegister
  · subst hd
    exact h r
  · by_cases hr : r = d
    · subst hr
      simp [hd]
    · simp [hr, h]

theorem boolWord_toNat (b : Prop) [Decidable b] : (boolWord (decide b)).toNat = if b then 1 else 0 := by
  by_cases h : b <;> simp [boolWord, h]

/-- The sign-extended immediate, as a residue modulo 65536. -/
theorem sext16_toNat (imm : Imm7) : ((sext16 imm).toNat : Int) = imm.toInt % 65536 := by
  have h := BitVec.toInt_signExtend_of_le (w := 7) (v := 16) (x := imm) (by omega)
  have h2 := BitVec.toInt_eq_toNat_cond (imm.signExtend 16)
  have := (imm.signExtend 16).isLt
  unfold sext16
  rw [← h]
  split at h2 <;> omega

/-- All that an instruction does to memory: the one that stores writes one word at its store address, any other nothing. -/
theorem exec_mem_cases (i : Instr) (s t : State) (h : exec i s = .next t) :
    (storeAddress i s = none ∧ t.mem = s.mem) ∨ ∃ a v, storeAddress i s = some a ∧ t.mem = s.mem.write a v := by
  cases i <;> simp only [exec] at h
  case j => unfold execJ at h; split at h <;> cases h <;> simp [storeAddress]
  case jeq => unfold execJeq at h; split at h <;> cases h <;> simp [storeAddress]
  case sw => cases h; exact .inr ⟨_, _, rfl, by simp; rfl⟩
  all_goals (cases h; exact .inl ⟨rfl, by simp⟩)

/-- Forcing register 0 changes nothing where it is 0 already. -/
theorem State.forceZero_of_zero (s : State) (h : s.reg zeroRegister = 0#16) : s.forceZero = s := by
  have hr : s.regs.set 0 0#16 = s.regs := by
    unfold State.reg at h
    conv_lhs => rw [← h]
    exact Vector.set_getElem_self _
  rw [State.forceZero, hr]

/-- A state that a cycle leaves as it is stays so for any number of steps. -/
theorem runSteps_of_fixed (s : State) (h : step s = .next s) (n : Nat) : runSteps n s = .next s := by
  induction n with
  | zero => rfl
  | succ n ih => simp only [runSteps, h]; exact ih

end Sys2Proof.Machine
end

