-- ==== Sys2Proof/Laws/PerInstr.lean ====
section
/-! SUPPORT. The per-instruction family TableRow: the word of an instruction fits the row of spec/opcode_table.json that
has its mnemonic. -/

namespace Sys2Proof.Laws.TableRow

/-- The row with the instruction's mnemonic exists and the instruction's word has its match under its mask. -/
def Statement (i : Instr) : Prop :=
  ∃ r ∈ opcodeTable, r.mnemonic = i.mnemonic ∧ r.fits (encode tableImmOpcodeMap i)

theorem formatR_mask (ra rb rc : RegIdx) (func : BitVec 4) :
    formatR ra rb rc func &&& 0xE00F#16 = 0#12 ++ func := by
  have h : (0xE00F#16 : Word) = (0b111#3 ++ 0#3 ++ 0#3 ++ 0#3 ++ 0b1111#4 : BitVec 16) := by decide
  have hf : func &&& 0b1111#4 = func := BitVec.and_allOnes
  rw [h, formatR, BitVec.and_append, BitVec.and_append, BitVec.and_append, BitVec.and_append, hf]
  simp

theorem formatI_mask (op : BitVec 3) (ra rb : RegIdx) (imm : Imm7) :
    formatI op ra rb imm &&& 0xE000#16 = op ++ 0#13 := by
  have h : (0xE000#16 : Word) = (0b111#3 ++ 0#3 ++ 0#3 ++ 0#7 : BitVec 16) := by decide
  have ho : op &&& 0b111#3 = op := BitVec.and_allOnes
  rw [h, formatI, BitVec.and_append, BitVec.and_append, BitVec.and_append, ho]
  simp only [BitVec.and_zero]
  rw [BitVec.append_assoc, BitVec.append_assoc]
  rfl

theorem formatJ_mask (op : BitVec 3) (target : Addr) : formatJ op target &&& 0xE000#16 = op ++ 0#13 := by
  have h : (0xE000#16 : Word) = (0b111#3 ++ 0#13 : BitVec 16) := by decide
  have ho : op &&& 0b111#3 = op := BitVec.and_allOnes
  rw [h, formatJ, BitVec.and_append, ho, BitVec.and_zero]

theorem formatReserved_mask (ignored : BitVec 9) (func mask : BitVec 4) :
    formatReserved ignored func &&& (0b111#3 ++ 0#9 ++ mask : BitVec 16) = 0#12 ++ (func &&& mask) := by
  rw [formatReserved, BitVec.and_append, BitVec.and_append]
  simp

theorem add (ra rb rc : RegIdx) : Statement (.add ra rb rc) :=
  ⟨⟨"add", 0x0000, 0xE00F⟩, by simp [opcodeTable], rfl, formatR_mask ra rb rc _⟩

theorem sub (ra rb rc : RegIdx) : Statement (.sub ra rb rc) :=
  ⟨⟨"sub", 0x0001, 0xE00F⟩, by simp [opcodeTable], rfl, formatR_mask ra rb rc _⟩

theorem or (ra rb rc : RegIdx) : Statement (.or ra rb rc) :=
  ⟨⟨"or", 0x0002, 0xE00F⟩, by simp [opcodeTable], rfl, formatR_mask ra rb rc _⟩

theorem and (ra rb rc : RegIdx) : Statement (.and ra rb rc) :=
  ⟨⟨"and", 0x0003, 0xE00F⟩, by simp [opcodeTable], rfl, formatR_mask ra rb rc _⟩

theorem slt (ra rb rc : RegIdx) : Statement (.slt ra rb rc) :=
  ⟨⟨"slt", 0x0004, 0xE00F⟩, by simp [opcodeTable], rfl, formatR_mask ra rb rc _⟩

theorem jr (ra rb rc : RegIdx) : Statement (.jr ra rb rc) :=
  ⟨⟨"jr", 0x0008, 0xE00F⟩, by simp [opcodeTable], rfl, formatR_mask ra rb rc _⟩

theorem addi (ra rb : RegIdx) (imm : Imm7) : Statement (.addi ra rb imm) :=
  ⟨⟨"addi", 0x2000, 0xE000⟩, by simp [opcodeTable], rfl, formatI_mask _ ra rb imm⟩

theorem j (target : Addr) : Statement (.j target) :=
  ⟨⟨"j", 0x4000, 0xE000⟩, by simp [opcodeTable], rfl, formatJ_mask _ target⟩

theorem jal (target : Addr) : Statement (.jal target) :=
  ⟨⟨"jal", 0x6000, 0xE000⟩, by simp [opcodeTable], rfl, formatJ_mask _ target⟩

theorem lw (ra rb : RegIdx) (imm : Imm7) : Statement (.lw ra rb imm) :=
  ⟨⟨"lw", 0x8000, 0xE000⟩, by simp [opcodeTable], rfl, formatI_mask _ ra rb imm⟩

theorem sw (ra rb : RegIdx) (imm : Imm7) : Statement (.sw ra rb imm) :=
  ⟨⟨"sw", 0xA000, 0xE000⟩, by simp [opcodeTable], rfl, formatI_mask _ ra rb imm⟩

theorem jeq (ra rb : RegIdx) (imm : Imm7) : Statement (.jeq ra rb imm) :=
  ⟨⟨"jeq", 0xC000, 0xE000⟩, by simp [opcodeTable], rfl, formatI_mask _ ra rb imm⟩

theorem slti (ra rb : RegIdx) (imm : Imm7) : Statement (.slti ra rb imm) :=
  ⟨⟨"slti", 0xE000, 0xE000⟩, by simp [opcodeTable], rfl, formatI_mask _ ra rb imm⟩

theorem reserved0101 (ignored : BitVec 9) : Statement (.reserved0101 ignored) :=
  ⟨⟨"reserved.0101", 0x0005, 0xE00F⟩, by simp [opcodeTable], rfl, formatReserved_mask ignored _ 0b1111#4⟩

theorem reserved011x (ignored : BitVec 9) (x : BitVec 1) : Statement (.reserved011x ignored x) := by
  have h : ((0b011#3 ++ x) &&& 0b1110#4 : BitVec 4) = 0x6#4 := by revert x; decide
  exact ⟨⟨"reserved.011x", 0x0006, 0xE00E⟩, by simp [opcodeTable], rfl,
    (formatReserved_mask ignored _ 0b1110#4).trans (congrArg (0#12 ++ ·) h)⟩

theorem reserved1001 (ignored : BitVec 9) : Statement (.reserved1001 ignored) :=
  ⟨⟨"reserved.1001", 0x0009, 0xE00F⟩, by simp [opcodeTable], rfl, formatReserved_mask ignored _ 0b1111#4⟩

theorem reserved101x (ignored : BitVec 9) (x : BitVec 1) : Statement (.reserved101x ignored x) := by
  have h : ((0b101#3 ++ x) &&& 0b1110#4 : BitVec 4) = 0xA#4 := by revert x; decide
  exact ⟨⟨"reserved.101x", 0x000A, 0xE00E⟩, by simp [opcodeTable], rfl,
    (formatReserved_mask ignored _ 0b1110#4).trans (congrArg (0#12 ++ ·) h)⟩

theorem reserved11xx (ignored : BitVec 9) (x : BitVec 2) : Statement (.reserved11xx ignored x) := by
  have h : ((0b11#2 ++ x) &&& 0b1100#4 : BitVec 4) = 0xC#4 := by revert x; decide
  exact ⟨⟨"reserved.11xx", 0x000C, 0xE00C⟩, by simp [opcodeTable], rfl,
    (formatReserved_mask ignored _ 0b1100#4).trans (congrArg (0#12 ++ ·) h)⟩

end Sys2Proof.Laws.TableRow
end

