-- ==== Sys2Proof/Tests/Slice0.lean ====
section
/-! SUPPORT. The model's own tests. Expected words, values and events are those of spec/95_test_vectors.md (its vector is named
before each group) or of a worked example of the rule cited. The `witness_` theorems meet the hypotheses of the statement each
names. -/

namespace Sys2Proof.Tests

open Sys2Proof Sys2Proof.Machine

/-! ### Well-formedness: each check refuses an ill-formed term (V-D, R9, R127) -/

theorem test_invalid_descriptors : [(⟨8, 3, 2⟩ : Descriptor), ⟨0, 1, 1⟩, ⟨4, 0, 1⟩, ⟨4, 1, 0⟩, ⟨2, 2, 2⟩].map
    Descriptor.valid = [false, false, false, false, false] := by decide
theorem test_valid_descriptors : [(⟨8, 2, 2⟩ : Descriptor), ⟨12, 1, 3⟩, ⟨6, 3, 2⟩, ⟨8192, 1, 1⟩, ⟨1, 1, 1⟩].map
    (fun d => (d.valid, d.rowCount)) = [(true, 2), (true, 4), (true, 1), (true, 8192), (true, 1)] := by decide
theorem test_invalid_l1 : ({ defaultLaunch with l1 := ⟨8, 3, 2⟩ } : LaunchConfig).valid = false := by decide
theorem test_invalid_l2 : ({ defaultLaunch with l2 := some ⟨2, 2, 2⟩ } : LaunchConfig).valid = false := by decide
theorem test_pcReset_8191 : ({ defaultLaunch with pcReset := 8191#13 } : LaunchConfig).valid = false := by decide
theorem test_regReset_zero_register :
    ({ defaultLaunch with regReset := #v[1, 0, 0, 0, 0, 0, 0, 0] } : LaunchConfig).valid = false := by decide
theorem test_defaultLaunch_valid : defaultLaunch.valid = true := by decide
theorem test_image_too_long : imageFits (List.replicate 8193 0#16) = false := by
  rw [imageFits, List.length_replicate]; decide
theorem test_memory_not_canonical : ¬ Memory.wf [(5, 1#16), (3, 2#16)] ∧ ¬ Memory.wf [(5, 0#16)] ∧
    ¬ Memory.wf [(8192, 1#16)] := by decide

/-! ### Decoding: one word written out for every constructor (R48 to R56, V-J, V-R, V-I, P1 to P6) -/

theorem test_decode_add : decode .published (0b000#3 ++ 2#3 ++ 1#3 ++ 2#3 ++ 0b0000#4) = .add 2 1 2 := by decide
theorem test_decode_sub : decodeTableWord 16 0x0531 = some (.sub 1 2 3) := by decide
theorem test_decode_or : decodeTableWord 16 0x0552 = some (.or 1 2 5) := by decide
theorem test_decode_and : decodeTableWord 16 0x0543 = some (.and 1 2 4) := by decide
theorem test_decode_slt : decodeTableWord 16 0x0CA4 = some (.slt 3 1 2) := by decide
theorem test_decode_jr : decodeTableWord 16 0x1F88 = some (.jr 7 7 0) := by decide
theorem test_decode_addi : decodeTableWord 16 0x24FF = some (.addi 1 1 0x7F) := by decide
theorem test_decode_j : decodeTableWord 16 0x5FFF = some (.j 8191) := by decide
theorem test_decode_jal : decodeTableWord 16 0x6007 = some (.jal 7) := by decide
theorem test_decode_lw : decodeTableWord 16 0x8128 = some (.lw 0 2 40) := by decide
theorem test_decode_sw : decodeTableWord 16 0xA2FF = some (.sw 0 5 0x7F) := by decide
theorem test_decode_jeq : decodeTableWord 16 0xC403 = some (.jeq 1 0 3) := by decide
theorem test_decode_slti : decodeTableWord 16 0xEF03 = some (.slti 3 6 3) := by decide
theorem test_decode_reserved0101 : decodeTableWord 16 0x03F5 = some (.reserved0101 0x3F) := by decide
theorem test_decode_reserved011x : decodeTableWord 16 0x0007 = some (.reserved011x 0 1) := by decide
theorem test_decode_reserved1001 : decodeTableWord 16 0x0009 = some (.reserved1001 0) := by decide
theorem test_decode_reserved101x : decodeTableWord 16 0x000B = some (.reserved101x 0 1) := by decide
theorem test_decode_reserved11xx : decodeTableWord 16 0x1FFF = some (.reserved11xx 0x1FF 3) := by decide
/-- R56: under the positional pairing 100, 110, 111 and 001 are slti, addi, lw and jeq. -/
theorem test_decode_positional : [0x8128#16, 0xA128#16, 0xC128#16, 0xE128#16, 0x2128#16].map (decode .positional) =
    [.slti 0 2 40, .sw 0 2 40, .addi 0 2 40, .lw 0 2 40, .jeq 0 2 40] := by decide

/-! ### One instruction each -/

/-- A running machine at `pc` with x[1], x[2], x[3]. -/
def machineAt (pc : Addr) (x1 x2 x3 : Word) : State :=
  { State.reset with pc := pc, regs := #v[0, x1, x2, x3, 0, 0, 0, 0] }

/-- The same under other parameters. -/
def machineWith (p : Params) (x1 x2 x3 : Word) : State := { machineAt 0 x1 x2 x3 with params := p }

/-- What a successful outcome holds. -/
def look {α : Type} (f : State → α) : Host.Outcome State Fault Refusal → Option α
  | .next s => some (f s)
  | .fault _ => none
  | .refused _ => none

/-- The step that runs one word. -/
def runWord (w : Nat) (s : State) : Host.Outcome State Fault Refusal := step (s.withFetchWord 16 w)

-- V-R2, V-R9
theorem test_add_wraps : look (fun s => (s.reg 3, s.pc)) (runWord 0x0530 (machineAt 0 65535 1 9)) = some (0, 1) := by decide
theorem test_add_discards_in_register_zero :
    look (fun s => (s.regs, s.pc)) (runWord 0x0500 (machineAt 0 10 5 0)) = some (#v[0, 10, 5, 0, 0, 0, 0, 0], 1) := by decide
-- V-R5
theorem test_sub_wraps : look (fun s => s.reg 3) (runWord 0x0531 (machineAt 0 10 12 0)) = some 65534 := by decide
-- V-R7b
theorem test_or : look (fun s => s.reg 3) (runWord 0x0532 (machineAt 0 0x0F0F 0x00FF 0)) = some 0x0FFF := by decide
theorem test_and : look (fun s => s.reg 3) (runWord 0x0533 (machineAt 0 0x0F0F 0x00FF 0)) = some 0x000F := by decide
-- V-R14, V-R15
theorem test_slt_unsigned : look (fun s => s.reg 1) (runWord 0x0534 (machineAt 0 0 0 65535)) = some 1 := by decide
theorem test_slt_uniform_roles : look (fun s => (s.reg 1, s.reg 3))
    (runWord 0x0534 (machineWith { defaultParams with roleMap := .e20Uniform } 0 65535 1)) = some (0, 1) := by decide
-- V-R8d and the role map on jr
theorem test_jr_wraps_and_ends : look (fun s => (s.pc, s.halted)) (runWord 0x0488 (machineAt 10 16383 0 0)) =
    some (8191, true) := by decide
theorem test_jr_roles : look (fun s => s.pc) (runWord 0x0508 (machineAt 0 20 30 0)) = some 30 ∧ look (fun s => s.pc)
    (runWord 0x0508 (machineWith { defaultParams with roleMap := .e20Uniform } 20 30 0)) = some 20 := by decide
-- V-I2
theorem test_addi_negative : look (fun s => s.reg 1) (runWord 0x24FF (machineAt 0 0 0 0)) = some 65535 := by decide
theorem test_addi_least : look (fun s => s.reg 1) (runWord 0x20C0 (machineAt 0 7 0 0)) = some 65472 := by decide
-- V-J2, V-J4
theorem test_j_self_halts : look (fun s => (s.pc, s.halted)) (runWord 0x4006 (machineAt 6 0 0 0)) = some (6, true) := by decide
theorem test_j_8191 : look (fun s => (s.pc, s.halted)) (runWord 0x5FFF (machineAt 3 0 0 0)) = some (8191, true) := by decide
-- V-J6, V-J8
theorem test_jal_self_runs : look (fun s => (s.pc, s.reg 7, s.halted)) (runWord 0x6005 (machineAt 5 0 0 0)) =
    some (5, 6, false) := by decide
theorem test_jal_links_8191 : look (fun s => (s.pc, s.reg 7)) (runWord 0x6000 (machineAt 8190 0 0 0)) =
    some (0, 8191) := by decide
-- V-I5
theorem test_lw_negative_displacement : look (fun s => (s.reg 3, s.events))
    (runWord 0x85FF { machineAt 20 0 0 0 with mem := [(8191, 0xBEEF#16)] }) =
      some (0xBEEF, [⟨.L1, .miss, 20, 8191, 1⟩]) := by decide
-- V-I7
theorem test_lw_register_zero : look (fun s => (s.reg 0, s.l1.rows)) (runWord 0x8005 (machineAt 0 0 0 0)) =
    some (0, [[1], []]) := by decide
-- V-I5
theorem test_sw_wraps : look (fun s => (s.readWord 3, s.events)) (runWord 0xA505 (machineAt 20 8190 0xBEEF 0)) =
    some (0xBEEF, [⟨.L1, .sw, 20, 3, 1⟩]) := by decide
/-- R117's worked example, through two levels. -/
theorem test_sw_two_levels : look (fun s => (s.l1.rows, s.l2.map (fun l => l.rows), s.events))
    (runWord 0xA0A8 { machineAt 1 21 0 0 with l1 := Level.reset ⟨4, 1, 2⟩, l2 := some (Level.reset ⟨16, 2, 2⟩) }) =
      some ([[10], []], some [[5], [], [], []], [⟨.L1, .sw, 1, 40, 0⟩, ⟨.L2, .sw, 1, 40, 0⟩]) := by decide
-- V-I4a, V-I3d
theorem test_jeq_wraps : look (fun s => s.pc) (runWord 0xC56C (machineAt 10 7 7 0)) = some 8183 := by decide
theorem test_jeq_self_runs : look (fun s => (s.pc, s.halted)) (runWord 0xC57F (machineAt 4 3 3 0)) = some (4, false) := by decide
-- V-I1 and the table of R116
theorem test_slti_signed : look (fun s => s.reg 6) (runWord 0xEF40 (machineAt 0 0 0 65471)) = some 1 := by decide
theorem test_slti_three_ways : [SltiCompare.signed16, .zextRegVsSextImm, .unsigned16].map
    (fun c => (sltiHolds c 5 0x7F, sltiHolds c 65535 0, sltiHolds c 65534 0x7F, sltiHolds c 0 0x40)) =
      [(false, true, true, false), (false, false, false, false), (true, false, true, true)] := by decide
-- the reserved function codes of V-R, and at cur = 8190
theorem test_reserved_codes_advance : [0x0005, 0x0006, 0x0007, 0x0009, 0x000A, 0x000B, 0x000C, 0x000D, 0x000E, 0x000F].map
    (fun w => look (fun s => (s.pc, s.regs, s.events)) (runWord w (machineAt 5 1 2 3))) =
      List.replicate 10 (some (6, #v[0, 1, 2, 3, 0, 0, 0, 0], [])) := by decide
theorem test_reserved_ends_at_8191 : look (fun s => (s.pc, s.halted)) (runWord 0x000F (machineAt 8190 0 0 0)) =
    some (8191, true) := by decide

/-! ### The caches -/

/-- S1 (conflicts C1 and C2): the classifications and the rows of the scenario. -/
theorem test_scenario : readTags defaultParams 2 [] [0, 1, 0, 2, 1] = ([.miss, .miss, .hit, .miss, .miss], [2, 1]) := by decide
-- V-C6, V-C8
theorem test_write_policies : rowWrite defaultParams 2 [1, 0] 0 = [0, 0] ∧
    rowWrite { defaultParams with writePolicy := .insertOnMiss } 2 [1, 0] 0 = [1, 0] := by decide
theorem test_lookup_duplicates : rowLookup .firstOccurrence [1, 0, 0] 0 = (.hit, [1, 0, 0]) ∧
    rowLookup .allOccurrences [1, 0, 0] 0 = (.hit, [1, 0]) := by decide
-- V-C1
theorem test_direct_mapped : readTags defaultParams 1 [] [1, 1, 2, 1] = ([.miss, .hit, .miss, .miss], [1]) := by decide
-- V-D
theorem test_decomposition : [(⟨8, 2, 2⟩ : Descriptor), ⟨16, 2, 2⟩, ⟨12, 1, 3⟩, ⟨6, 3, 2⟩].map
    (fun d => (rowIndex d 8191, tagOf d 8191)) = [(1, 2047), (3, 1023), (2, 682), (0, 4095)] := by decide
/-- R94, V-T5 and R63: a halted machine keeps its state, and an invalid configuration has no step. -/
theorem test_halted_stays : step { machineAt 6 1 2 3 with halted := true } = .next { machineAt 6 1 2 3 with halted := true } := rfl
theorem test_invalid_configuration_refused :
    look (fun s => s.pc) (step { State.reset with l1 := Level.reset ⟨8, 3, 2⟩ }) = none := by decide
/-- The image of P4, its next-to-last word zero in memory, is laid out in canonical form (R143). -/
theorem test_launch : (State.launch defaultLaunch [0x8084, 0, 0x4002]).map (fun s => s.mem) =
    some [(0, 0x8084), (2, 0x4002)] := by decide

/-! ### Witnesses: concrete states and operands that meet the hypotheses of the statements -/

/-- A running machine in mid-run: a store and a load have passed, two levels hold tags, memory holds words. -/
def midRun : State :=
  { machineAt 3 21 40 8191 with
    mem := [(3, 0x81AC), (40, 21), (8191, 42)],
    l1 := { desc := ⟨4, 2, 1⟩, rows := [[20, 1], [4095]] },
    l2 := some { desc := ⟨16, 2, 2⟩, rows := [[5], [], [5], []] },
    events := [⟨.L1, .miss, 2, 40, 0⟩, ⟨.L2, .miss, 2, 40, 0⟩] }

/-- The same with a direct-mapped L1 whose first row is empty, and without L2. -/
def directMapped : State := { midRun with l1 := { desc := ⟨4, 1, 1⟩, rows := [[], [], [7], []] }, l2 := none, events := [] }

theorem witness_inv : midRun.Inv ∧ midRun.halted = false ∧ ∃ t, step midRun = .next t := ⟨by decide, rfl, _, rfl⟩
theorem witness_inv_at_the_top : ({ midRun with pc := 8191, halted := true } : State).Inv := by decide
theorem witness_inv_insert_on_miss :
    ({ midRun with params := { defaultParams with writePolicy := .insertOnMiss } } : State).Inv := by decide

theorem witness_slt_docLiteral_unsigned16 :
    midRun.params.roleMap = .docLiteral ∧ midRun.params.sltCompare = .unsigned16 := by decide
theorem witness_slt_docLiteral_signed16 : let p : Params := { defaultParams with sltCompare := .signed16 }
    (machineWith p 0 0 65535).params.roleMap = .docLiteral ∧ (machineWith p 0 0 65535).params.sltCompare = .signed16 := by decide
theorem witness_slt_e20Uniform_unsigned16 : let p : Params := { defaultParams with roleMap := .e20Uniform }
    (machineWith p 0 65535 1).params.roleMap = .e20Uniform ∧ (machineWith p 0 65535 1).params.sltCompare = .unsigned16 := by
  decide
theorem witness_slt_e20Uniform_signed16 : let p : Params := { defaultParams with roleMap := .e20Uniform, sltCompare := .signed16 }
    (machineWith p 0 65535 1).params.roleMap = .e20Uniform ∧ (machineWith p 0 65535 1).params.sltCompare = .signed16 := by decide
/-- The register clauses at their boundary: a destination that is register 0 and one that is not. -/
theorem witness_written_register : (zeroRegister = zeroRegister) ∧ (7#3 ≠ zeroRegister) ∧ (1#3 ≠ zeroRegister) := by decide
theorem witness_jr_roles : midRun.params.roleMap = .docLiteral ∧
    (machineWith { defaultParams with roleMap := .e20Uniform } 20 30 0).params.roleMap = .e20Uniform := by decide
theorem witness_reserved_forms : ∀ i ∈ [Instr.reserved0101 0x1FF, .reserved011x 0 1, .reserved1001 0, .reserved101x 0x1FF 0,
    .reserved11xx 0 3], (∃ g, i = .reserved0101 g) ∨ (∃ g x, i = .reserved011x g x) ∨ (∃ g, i = .reserved1001 g) ∨
      (∃ g x, i = .reserved101x g x) ∨ (∃ g x, i = .reserved11xx g x) := by simp
theorem witness_j_targets : 0x5FFF#16 &&& 0xE000#16 = 0x4000#16 ∧ (4#13 : Addr) ≠ midRun.pc ∧ (3#13 : Addr) = midRun.pc := by
  decide
/-- An instruction after which the run has ended: the self-jump, and any other where it had ended before. -/
theorem witness_halting : (∃ t, exec (.j 3) midRun = .next t ∧ t.halted = true) ∧
    ∃ t, exec (.jal 3) { midRun with halted := true } = .next t ∧ t.halted = true := ⟨⟨_, rfl, rfl⟩, _, rfl, rfl⟩
theorem witness_slti_signed16 : midRun.params.sltiCompare = .signed16 := rfl
theorem witness_slti_zext : (machineWith { defaultParams with sltiCompare := .zextRegVsSextImm } 0 0 65535).params.sltiCompare =
    .zextRegVsSextImm := rfl
theorem witness_slti_unsigned16 : (machineWith { defaultParams with sltiCompare := .unsigned16 } 0 0 65535).params.sltiCompare =
    .unsigned16 := rfl
theorem witness_slti_agree : (32767#16).toNat < 32768 ∧ 0 ≤ (63#7).toInt ∧ 0 ≤ (0#7).toInt := by decide
/-- The stored address at both ends of memory. -/
theorem witness_sw : midRun.mem.wf ∧ midRun.effectiveAddress 3 0 = 8191#13 ∧ midRun.effectiveAddress 3 1 = 0#13 := by decide
theorem witness_jeq : midRun.reg 1 ≠ midRun.reg 2 ∧ midRun.reg 2 = midRun.reg 2 := by decide
theorem witness_only_loads_and_stores : isLoadOrStore (.add 1 2 3) = false ∧ isImmediate (.jeq 1 2 3) = true ∧
    opField 0x8128#16 ∉ [0b000#3, 0b010#3, 0b011#3] := by decide
theorem witness_valid_descriptor : (⟨16, 2, 2⟩ : Descriptor).valid = true ∧ (⟨1, 1, 1⟩ : Descriptor).valid = true := by decide
theorem witness_lookup : (3 : Tag) ∉ ([1, 0, 2] : Row) ∧ (0 : Tag) ∈ ([1, 0, 2, 0] : Row) := by decide
/-- A level at capacity, one with room, a tag present and one absent. -/
theorem witness_cache_access : midRun.l1.wf midRun.params ∧ midRun.l1.desc.assoc ≠ 1 ∧
    20 ∈ midRun.l1.row 0 ∧ 4 ∉ midRun.l1.row 0 ∧ midRun.l1.row 0 = 20 :: [1] ∧ (midRun.l1.row 0).length = midRun.l1.desc.assoc ∧
    4 ∉ midRun.l1.row 1 ∧ (midRun.l1.row 1).length < midRun.l1.desc.assoc ∧ rowIndex midRun.l1.desc 8 = 0 ∧
    tagOf midRun.l1.desc 8 = 4 ∧ rowIndex midRun.l1.desc 9 = 1 ∧ tagOf midRun.l1.desc 9 = 4 ∧ tagOf midRun.l1.desc 40 = 20 ∧
    midRun.params.writePolicy = .faithfulDuplicate := by decide
theorem witness_cache_access_direct : directMapped.l1.wf directMapped.params ∧ directMapped.l1.desc.assoc = 1 ∧
    directMapped.l1.row (rowIndex directMapped.l1.desc 4) = [] ∧
    rowIndex directMapped.l1.desc 8 = rowIndex directMapped.l1.desc 4 ∧
    blockId directMapped.l1.desc 8 ≠ blockId directMapped.l1.desc 4 := by decide
theorem witness_cache_write_insert_on_miss : let p : Params := { defaultParams with writePolicy := .insertOnMiss }
    midRun.l1.wf p ∧ p.writePolicy = .insertOnMiss := by decide
theorem witness_same_block : (Level.reset ⟨16, 2, 2⟩).wf defaultParams ∧ blockId ⟨16, 2, 2⟩ 41 = blockId ⟨16, 2, 2⟩ 40 := by decide
theorem witness_different_rows : rowIndex midRun.l1.desc 8190 ≠ rowIndex midRun.l1.desc 8191 := by decide
theorem witness_lru : ((0 : Tag) :: [1] ++ [2]).Nodup ∧ ((0 : Tag) :: [] ++ [1]).Nodup ∧ 2 ≤ ((0 : Tag) :: [1]).length := by decide
theorem witness_repeated_writes : defaultParams.writePolicy = .faithfulDuplicate ∧
    defaultParams.lookupDup = .firstOccurrence ∧ ([1, 0] : Row).length ≤ 2 := by decide
/-- L1 hit; no L2; L1 miss with an L2. -/
theorem witness_load_paths : midRun.l1.readClass midRun.params 40 = .hit ∧ directMapped.l2 = none ∧
    midRun.l2 = some ⟨⟨16, 2, 2⟩, [[5], [], [5], []]⟩ ∧ midRun.l1.readClass midRun.params 44 = .miss := by decide
theorem witness_load_after_store : ∃ s' t u v, midRun.mem.wf ∧ execList [.addi 0 1 5, .sw 0 1 9] midRun = .next s' ∧
    exec (.sw 3 2 0) s' = .next t ∧ execList [.sw 3 1 1, .addi 0 3 0x7F, .lw 0 5 9] t = .next u ∧
    NoStoreTo (s'.effectiveAddress 3 0) [.sw 3 1 1, .addi 0 3 0x7F, .lw 0 5 9] t ∧
    u.effectiveAddress 3 0 = s'.effectiveAddress 3 0 ∧ exec (.lw 3 4 0) u = .next v ∧ 4#3 ≠ zeroRegister :=
  ⟨_, _, _, _, by decide, rfl, rfl, rfl,
    ⟨by decide, fun _ h => by cases h; exact ⟨by decide, fun _ h => by cases h; exact ⟨by decide, fun _ _ => trivial⟩⟩⟩,
    by decide, rfl, by decide⟩
theorem witness_program_view : SameProgramView midRun directMapped ∧ directMapped.configValid = true ∧
    ∃ t, step midRun = .next t := ⟨⟨fun _ => rfl, rfl, rfl, rfl, rfl, rfl, rfl, rfl⟩, rfl, _, rfl⟩
theorem witness_decoded_step : midRun.configValid = true ∧ midRun.halted = false ∧
    decode midRun.params.immOpcodeMap (midRun.readWord midRun.pc) = .lw 0 3 44 ∧ ∃ t, exec (.lw 0 3 44) midRun = .next t :=
  ⟨rfl, rfl, by decide, _, rfl⟩
theorem witness_configurations : midRun.configValid = true ∧
    ({ midRun with l2 := some (Level.reset ⟨2, 2, 2⟩) } : State).configValid = false := by decide
theorem witness_launch : ∃ s, State.launch { defaultLaunch with l2 := some ⟨16, 2, 2⟩ } [0x8084, 0, 0x4002] = some s := ⟨_, rfl⟩
theorem witness_run_ends : (machineAt 8190 0 0 0).halted = false ∧ (∃ t, step (machineAt 8190 0 0 0) = .next t) ∧
    ∃ t, step ((machineAt 6 0 0 0).withFetchWord 16 0x4006) = .next t := ⟨rfl, ⟨_, rfl⟩, _, rfl⟩
theorem witness_halted : ({ midRun with halted := true } : State).configValid = true ∧
    ({ midRun with halted := true } : State).halted = true := by decide
theorem witness_stored_instruction : let s := (machineAt 1 0x2107 0 0).withFetchWord 16 0xA082
    s.mem.wf ∧ s.halted = false ∧ decode s.params.immOpcodeMap (s.readWord s.pc) = .sw 0 1 2 ∧
      s.effectiveAddress 0 2 = s.pc + 1#13 ∧ ∃ t, step s = .next t := ⟨by decide, rfl, by decide, by decide, _, rfl⟩
/-- V-I3d, and the same register twice. -/
theorem witness_self_branch : let s := (machineAt 4 3 3 0).withFetchWord 16 0xC57F
    s.Inv ∧ s.halted = false ∧ decode s.params.immOpcodeMap (s.readWord s.pc) = .jeq 1 2 0x7F#7 ∧ s.reg 1 = s.reg 2 := by decide
theorem witness_self_branch_same_register : let s := (machineAt 4 3 0 0).withFetchWord 16 0xC4FF
    s.Inv ∧ s.halted = false ∧ decode s.params.immOpcodeMap (s.readWord s.pc) = .jeq 1 1 0x7F#7 ∧ s.reg 1 = s.reg 1 := by decide
theorem witness_zero_words : (machineAt 8189 1 2 3).Inv ∧ (machineAt 8189 1 2 3).halted = false ∧
    ∀ a : Addr, (machineAt 8189 1 2 3).pc.toNat ≤ a.toNat → a.toNat < 8191 → (machineAt 8189 1 2 3).readWord a = 0#16 :=
  ⟨by decide, rfl, fun _ _ _ => rfl⟩

end Sys2Proof.Tests
end

/-! SUPPORT. What a step keeps of the cache hierarchy and of the configuration, with the proofs of the two statements of
spec/10_state.md: no step changes the configuration, and every step keeps the invariant. -/

namespace Sys2Proof.Machine

/-! ### Well-formed rows and levels -/

/-- What every access leaves in a row, tags the row held and then the tag accessed, is within the row's bounds. -/
theorem Row.wf_append_tag (p : Params) (d : Descriptor) (r : Nat) (row rest : Row) (t : Tag) (h : Row.wf p d r row)
    (hlen : rest.length + 1 ≤ d.assoc) (hsub : ∀ u ∈ rest, u ∈ row) (ht : t * d.rowCount + r ≤ (memSize - 1) / d.blockSize)
    (hnd : p.writePolicy = .insertOnMiss → (rest ++ [t]).Nodup) : Row.wf p d r (rest ++ [t]) := by
  obtain ⟨-, htags, -⟩ := h
  refine ⟨by simpa using hlen, fun u hu => ?_, hnd⟩
  rcases List.mem_append.1 hu with hu | hu
  · exact htags u (hsub u hu)
  · exact List.mem_singleton.1 hu ▸ ht

theorem Row.wf_rowRead (p : Params) (d : Descriptor) (r : Nat) (row : Row) (t : Tag) (hd : d.valid = true)
    (h : Row.wf p d r row) (ht : t * d.rowCount + r ≤ (memSize - 1) / d.blockSize) :
    Row.wf p d r (rowRead p d.assoc row t).2 := by
  obtain ⟨-, hassoc, -, -⟩ := descriptor_valid_spec d hd
  have ⟨hcap, _, hnodup⟩ := h
  obtain ⟨rest, heq, hlen, hsub, hnot⟩ := rowRead_spec p d.assoc row t hassoc hcap
  rw [heq]
  refine Row.wf_append_tag p d r row rest t h hlen (fun u hu => hsub.subset hu) ht fun hp => ?_
  have hrow : row.Nodup := hnodup hp
  exact List.nodup_append_comm.1 (List.nodup_cons.2 ⟨hnot hrow, hrow.sublist hsub⟩)

/-- Under `insert_on_miss` a write does to its row what a read does (R74). -/
theorem rowWrite_insertOnMiss (p : Params) (assoc : Nat) (row : Row) (t : Tag) (hp : p.writePolicy = .insertOnMiss) :
    rowWrite p assoc row t = (rowRead p assoc row t).2 := by
  unfold rowWrite rowRead
  split
  · rfl
  · rw [hp]
    split <;> simp_all

theorem Row.wf_rowWrite (p : Params) (d : Descriptor) (r : Nat) (row : Row) (t : Tag) (hd : d.valid = true)
    (h : Row.wf p d r row) (ht : t * d.rowCount + r ≤ (memSize - 1) / d.blockSize) :
    Row.wf p d r (rowWrite p d.assoc row t) := by
  cases hp : p.writePolicy with
  | insertOnMiss =>
    rw [rowWrite_insertOnMiss p d.assoc row t hp]
    exact Row.wf_rowRead p d r row t hd h ht
  | faithfulDuplicate =>
    obtain ⟨-, hassoc, -, -⟩ := descriptor_valid_spec d hd
    obtain ⟨rest, heq, hlen, hsub⟩ := rowWrite_faithful_spec p d.assoc row t hassoc h.1 hp
    rw [heq]
    exact Row.wf_append_tag p d r row rest t h hlen hsub ht (by simp [hp])

/-- Row and tag of an address give back its block (R64). -/
theorem tagOf_mul_rowCount_add_rowIndex (d : Descriptor) (a : Addr) :
    tagOf d a * d.rowCount + rowIndex d a = blockId d a := Nat.div_add_mod' _ _

/-- The tag of an address is the tag of a block of memory that maps to the row of the address. -/
theorem tagOf_in_memory (d : Descriptor) (a : Addr) :
    tagOf d a * d.rowCount + rowIndex d a ≤ (memSize - 1) / d.blockSize := by
  rw [tagOf_mul_rowCount_add_rowIndex]
  exact Nat.div_le_div_right (Nat.le_pred_of_lt a.isLt)

theorem Level.wf_setRow (p : Params) (l : Level) (r : Nat) (row : Row) (h : l.wf p) (hrow : Row.wf p l.desc r row) :
    (l.setRow r row).wf p := by
  obtain ⟨hvalid, hlen, hrows⟩ := h
  refine ⟨hvalid, by simpa using hlen, fun r' hr' => ?_⟩
  rw [Level.setRow_desc] at hr' ⊢
  by_cases hr : r' = r
  · subst hr
    rwa [Level.row_setRow_same l r' row (hlen ▸ hr')]
  · rw [Level.row_setRow_ne l r r' row hr]
    exact hrows r' hr'

/-- A read keeps a level well formed. -/
theorem Level.wf_afterRead (p : Params) (l : Level) (a : Addr) (h : l.wf p) : (l.afterRead p a).wf p := by
  have ⟨hvalid, _, hrows⟩ := h
  have hrow := hrows _ (rowIndex_lt l.desc a hvalid)
  exact Level.wf_setRow p l _ _ h (Row.wf_rowRead p l.desc _ _ _ hvalid hrow (tagOf_in_memory l.desc a))

/-- A write keeps a level well formed. -/
theorem Level.wf_afterWrite (p : Params) (l : Level) (a : Addr) (h : l.wf p) : (l.afterWrite p a).wf p := by
  have ⟨hvalid, _, hrows⟩ := h
  have hrow := hrows _ (rowIndex_lt l.desc a hvalid)
  exact Level.wf_setRow p l _ _ h (Row.wf_rowWrite p l.desc _ _ _ hvalid hrow (tagOf_in_memory l.desc a))

/-! ### What an instruction does to the caches, the events and the parameters -/

/-- The caches, the event stream and the parameters are as before. -/
def SameCaches (s t : State) : Prop :=
  t.l1 = s.l1 ∧ t.l2 = s.l2 ∧ t.events = s.events ∧ t.params = s.params

theorem State.storePath_writeWord (s : State) (a b : Addr) (v : Word) :
    (s.writeWord a v).storePath b = (s.storePath b).writeWord a v := by
  unfold State.storePath
  rw [State.writeWord_l2]
  cases s.l2 <;> rfl

theorem exec_lw_sameCaches (ra rb : RegIdx) (imm : Imm7) (s t : State) (h : exec (.lw ra rb imm) s = .next t) :
    SameCaches (s.loadPath (s.effectiveAddress ra imm)) t := by
  cases h
  simp [SameCaches]

theorem exec_sw_sameCaches (ra rb : RegIdx) (imm : Imm7) (s t : State) (h : exec (.sw ra rb imm) s = .next t) :
    SameCaches (s.storePath (s.effectiveAddress ra imm)) t := by
  cases h
  simp [SameCaches, State.storePath_writeWord]

/-- All that an instruction does to the caches, the events and the parameters: the load path of an address (R76), the store
path of one (R77), or nothing (R122). -/
theorem exec_cache_cases (i : Instr) (s t : State) (h : exec i s = .next t) :
    SameCaches s t ∨ ∃ a, SameCaches (s.loadPath a) t ∨ SameCaches (s.storePath a) t := by
  cases i
  case lw => exact .inr ⟨_, .inl (exec_lw_sameCaches _ _ _ _ _ h)⟩
  case sw => exact .inr ⟨_, .inr (exec_sw_sameCaches _ _ _ _ _ h)⟩
  case j => simp only [exec, execJ] at h; split at h <;> cases h <;> simp [SameCaches]
  case jeq => simp only [exec, execJeq] at h; split at h <;> cases h <;> simp [SameCaches]
  all_goals (cases h; exact .inl (by simp [SameCaches]))

theorem retire_sameCaches (s : State) : SameCaches s s.retire := by simp [SameCaches]

/-! ### The configuration (R8, R23) -/

/-- The parameters, the L1 descriptor, the presence of L2 and the L2 descriptor are as before. -/
def SameConfig (s t : State) : Prop :=
  t.params = s.params ∧ t.l1.desc = s.l1.desc ∧ t.l2.map (fun l => l.desc) = s.l2.map (fun l => l.desc)

theorem SameConfig.refl (s : State) : SameConfig s s := ⟨rfl, rfl, rfl⟩

theorem SameConfig.trans {s t u : State} (h : SameConfig s t) (h' : SameConfig t u) : SameConfig s u :=
  let ⟨hp, h1, h2⟩ := h
  let ⟨hp', h1', h2'⟩ := h'
  ⟨hp'.trans hp, h1'.trans h1, h2'.trans h2⟩

theorem SameCaches.sameConfig {s t : State} (h : SameCaches s t) : SameConfig s t := by
  obtain ⟨hl1, hl2, -, hp⟩ := h
  exact ⟨hp, by rw [hl1], by rw [hl2]⟩

theorem loadPath_sameConfig (s : State) (a : Addr) : SameConfig s (s.loadPath a) := by
  rcases s.loadPath_cases a with ⟨h, -⟩ | ⟨l, hl, -, h⟩ <;> rw [h]
  · simp [SameConfig]
  · simp [SameConfig, hl]

theorem storePath_sameConfig (s : State) (a : Addr) : SameConfig s (s.storePath a) := by
  rcases s.storePath_cases a with ⟨-, h⟩ | ⟨l, hl, h⟩ <;> rw [h]
  · simp [SameConfig]
  · simp [SameConfig, hl]

theorem exec_sameConfig (i : Instr) (s t : State) (h : exec i s = .next t) : SameConfig s t := by
  rcases exec_cache_cases i s t h with hc | ⟨a, hc | hc⟩
  · exact hc.sameConfig
  · exact (loadPath_sameConfig s a).trans hc.sameConfig
  · exact (storePath_sameConfig s a).trans hc.sameConfig

/-- Settles O45: an instruction changes the levels only along the load and store paths, which keep every descriptor. -/
theorem configurationNeverChanges : Obligations.ConfigurationNeverChanges := by
  intro s t h
  obtain ⟨-, ⟨-, rfl⟩ | ⟨-, u, hu, rfl⟩⟩ := step_next_cases s t h
  · exact SameConfig.refl t
  · exact (exec_sameConfig _ s u hu).trans (retire_sameCaches u).sameConfig

/-! ### The cache part of the invariant -/

/-- The part of the invariant that concerns the levels and the event stream. -/
structure State.CachesWf (s : State) : Prop where
  l1     : s.l1.wf s.params
  l2     : ∀ l ∈ s.l2.toList, l.wf s.params
  events : ∀ e ∈ s.events, e.wf s

theorem State.inv_iff (s : State) :
    s.Inv ↔ s.reg zeroRegister = 0#16 ∧ s.mem.wf ∧ s.CachesWf ∧ (s.pc = lastAddress → s.halted = true) := by
  constructor
  · rintro ⟨hzero, hmem, hl1, hl2, hpc, hev⟩
    exact ⟨hzero, hmem, ⟨hl1, hl2, hev⟩, hpc⟩
  · rintro ⟨hzero, hmem, ⟨hl1, hl2, hev⟩, hpc⟩
    exact ⟨hzero, hmem, hl1, hl2, hpc, hev⟩

theorem SameConfig.descriptorOf {s t : State} (h : SameConfig s t) (id : CacheId) :
    t.descriptorOf id = s.descriptorOf id := by
  obtain ⟨-, h1, h2⟩ := h
  cases id with
  | L1 => exact congrArg some h1
  | L2 => exact h2

/-- A well-formed event record depends on the configuration alone. -/
theorem SameConfig.event_wf {s t : State} (h : SameConfig s t) {e : Event} (he : e.wf s) : e.wf t := by
  rwa [Event.wf, h.descriptorOf e.id]

theorem SameCaches.cachesWf {s t : State} (h : SameCaches s t) (hs : s.CachesWf) : t.CachesWf := by
  have hconf := h.sameConfig
  obtain ⟨hl1, hl2, hev, hp⟩ := h
  refine ⟨?_, ?_, ?_⟩
  · rw [hl1, hp]; exact hs.l1
  · rw [hl2, hp]; exact hs.l2
  · rw [hev]; exact fun e he => hconf.event_wf (hs.events e he)

/-- Appending a well-formed event keeps every event well formed where the configuration is kept. -/
theorem events_wf_append {s t : State} (e : Event) (hev : ∀ e ∈ s.events, e.wf s) (hconf : SameConfig s t)
    (he : e.wf s) (ht : t.events = s.events ++ [e]) : ∀ e ∈ t.events, e.wf t := by
  intro e' he'
  rw [ht, List.mem_append, List.mem_singleton] at he'
  rcases he' with he' | rfl
  · exact hconf.event_wf (hev e' he')
  · exact hconf.event_wf he

/-- An access that leaves L1 well formed and of the same descriptor, and records an event in the row of its address. -/
theorem cachesWf_access_l1 (s : State) (l : Level) (k : EventKind) (a : Addr) (hs : s.CachesWf) (hpc : s.pc ≠ lastAddress)
    (hl : l.wf s.params) (hd : l.desc = s.l1.desc) :
    ({ s with l1 := l }.emit ⟨.L1, k, s.pc, a, rowIndex s.l1.desc a⟩).CachesWf :=
  ⟨hl, hs.l2, events_wf_append _ hs.events ⟨rfl, hd, rfl⟩ ⟨hpc, rfl⟩ rfl⟩

/-- The same for a machine whose L2 is `m`. -/
theorem cachesWf_access_l2 (s : State) (m l : Level) (k : EventKind) (a : Addr) (hs : s.CachesWf) (hm : s.l2 = some m)
    (hpc : s.pc ≠ lastAddress) (hl : l.wf s.params) (hd : l.desc = m.desc) :
    ({ s with l2 := some l }.emit ⟨.L2, k, s.pc, a, rowIndex m.desc a⟩).CachesWf := by
  refine ⟨hs.l1, by simpa using hl, events_wf_append _ hs.events ⟨rfl, rfl, ?_⟩ ⟨hpc, ?_⟩ rfl⟩
  · simp [hm, hd]
  · simp [State.descriptorOf, hm]

theorem State.CachesWf.level_wf {s : State} (hs : s.CachesWf) {l : Level} (hl : s.l2 = some l) : l.wf s.params :=
  hs.l2 l (by simp [hl])

theorem loadPath_cachesWf (s : State) (a : Addr) (hs : s.CachesWf) (hpc : s.pc ≠ lastAddress) : (s.loadPath a).CachesWf := by
  have first : (s.readL1 a).CachesWf := cachesWf_access_l1 s _ _ a hs hpc (Level.wf_afterRead _ _ a hs.l1) rfl
  rcases s.loadPath_cases a with ⟨h, -⟩ | ⟨l, hl, -, h⟩ <;> rw [h]
  · exact first
  · exact cachesWf_access_l2 (s.readL1 a) l _ _ a first hl hpc (Level.wf_afterRead _ _ a (first.level_wf hl)) rfl

theorem storePath_cachesWf (s : State) (a : Addr) (hs : s.CachesWf) (hpc : s.pc ≠ lastAddress) : (s.storePath a).CachesWf := by
  have first : (s.writeL1 a).CachesWf := cachesWf_access_l1 s _ _ a hs hpc (Level.wf_afterWrite _ _ a hs.l1) rfl
  rcases s.storePath_cases a with ⟨-, h⟩ | ⟨l, hl, h⟩ <;> rw [h]
  · exact first
  · exact cachesWf_access_l2 (s.writeL1 a) l _ _ a first hl hpc (Level.wf_afterWrite _ _ a (first.level_wf hl)) rfl

/-- An instruction that does not stand at 8191 keeps the levels and the events well formed. -/
theorem exec_cachesWf (i : Instr) (s t : State) (h : exec i s = .next t) (hs : s.CachesWf) (hpc : s.pc ≠ lastAddress) :
    t.CachesWf := by
  rcases exec_cache_cases i s t h with hc | ⟨a, hc | hc⟩
  · exact hc.cachesWf hs
  · exact hc.cachesWf (loadPath_cachesWf s a hs hpc)
  · exact hc.cachesWf (storePath_cachesWf s a hs hpc)

/-! ### The whole invariant -/

theorem exec_mem_wf (i : Instr) (s t : State) (h : exec i s = .next t) (hs : s.mem.wf) : t.mem.wf := by
  rcases exec_mem_cases i s t h with ⟨-, hm⟩ | ⟨a, v, -, hm⟩ <;> rw [hm]
  · exact hs
  · exact Memory.wf_write s.mem hs a v

/-- The end of a step gives the clauses on register 0 and on address 8191, whatever the instruction left (R90, R92). -/
theorem retire_inv (s : State) (hmem : s.mem.wf) (hs : s.CachesWf) : s.retire.Inv := by
  refine s.retire.inv_iff.2 ⟨s.retire_reg_zero, ?_, (retire_sameCaches s).cachesWf hs, fun hpc => ?_⟩
  · rwa [State.retire_mem]
  · rw [State.retire_pc] at hpc
    simp [hpc]

/-- Settles O38: a halted machine keeps its state; a running one stands below 8191, its instruction keeps the memory, the
levels and the events well formed, and the end of the step gives the rest. -/
theorem stepKeepsTheInvariant : Obligations.StepKeepsTheInvariant := by
  intro s t hinv h
  obtain ⟨-, ⟨-, rfl⟩ | ⟨hrun, u, hu, rfl⟩⟩ := step_next_cases s t h
  · exact hinv
  · obtain ⟨-, hmem, hcaches, hlast⟩ := s.inv_iff.1 hinv
    have hpc : s.pc ≠ lastAddress := fun hpc => by simp [hlast hpc] at hrun
    exact retire_inv u (exec_mem_wf _ s u hu hmem) (exec_cachesWf _ s u hu hcaches hpc)

end Sys2Proof.Machine

/-! SUPPORT. What a program can see, with the proofs of the two statements of spec/20_memory.md: no cache state reaches it, and
a word stored at the next address is the next instruction. -/

namespace Sys2Proof.Machine

/-! ### What equal views give an instruction to read (R39) -/

section View

variable {s s' : State}

theorem SameProgramView.reg (h : SameProgramView s s') (r : RegIdx) : s'.reg r = s.reg r := h.1 r

theorem SameProgramView.pc (h : SameProgramView s s') : s'.pc = s.pc :=
  let ⟨_, hpc, _⟩ := h
  hpc

theorem SameProgramView.readWord (h : SameProgramView s s') (a : Addr) : s'.readWord a = s.readWord a := by
  obtain ⟨-, -, hmem, -⟩ := h
  exact congrArg (fun m => m.read a) hmem

theorem SameProgramView.halted (h : SameProgramView s s') : s'.halted = s.halted :=
  let ⟨_, _, _, hhalted, _⟩ := h
  hhalted

/-- The parameters that are not parameters of the caches (R9). -/
theorem SameProgramView.params (h : SameProgramView s s') :
    s'.params.roleMap = s.params.roleMap ∧ s'.params.immOpcodeMap = s.params.immOpcodeMap ∧
      s'.params.sltiCompare = s.params.sltiCompare ∧ s'.params.sltCompare = s.params.sltCompare :=
  let ⟨_, _, _, _, hparams⟩ := h
  hparams

theorem SameProgramView.effectiveAddress (h : SameProgramView s s') (ra : RegIdx) (imm : Imm7) :
    s'.effectiveAddress ra imm = s.effectiveAddress ra imm := by
  rw [State.effectiveAddress, State.effectiveAddress, h.reg]

theorem SameProgramView.currentInstr (h : SameProgramView s s') : s'.currentInstr = s.currentInstr := by
  obtain ⟨-, hmap, -, -⟩ := h.params
  rw [State.currentInstr, State.currentInstr, hmap, State.fetch, State.fetch, h.pc, h.readWord]

/-! ### Every operation keeps views equal -/

theorem SameProgramView.setPc (h : SameProgramView s s') (a : Addr) : SameProgramView (s.setPc a) (s'.setPc a) := by
  obtain ⟨hreg, -, hrest⟩ := h
  exact ⟨hreg, rfl, hrest⟩

theorem SameProgramView.advance (h : SameProgramView s s') : SameProgramView s.advance s'.advance := by
  rw [State.advance, State.advance, h.pc]
  exact h.setPc _

theorem SameProgramView.halt (h : SameProgramView s s') : SameProgramView s.halt s'.halt := by
  obtain ⟨hreg, hpc, hmem, -, hparams⟩ := h
  exact ⟨hreg, hpc, hmem, rfl, hparams⟩

theorem SameProgramView.writeWord (h : SameProgramView s s') (a : Addr) (v : Word) :
    SameProgramView (s.writeWord a v) (s'.writeWord a v) := by
  obtain ⟨hreg, hpc, hmem, hrest⟩ := h
  exact ⟨hreg, hpc, congrArg (fun m => m.write a v) hmem, hrest⟩

theorem SameProgramView.setReg (h : SameProgramView s s') (d : RegIdx) (v : Word) :
    SameProgramView (s.setReg d v) (s'.setReg d v) := by
  obtain ⟨hreg, hrest⟩ := h
  exact ⟨fun r => setReg_reg_congr s s' hreg d r v, by simpa using hrest⟩

theorem SameProgramView.writeResult (h : SameProgramView s s') (d : RegIdx) (v : Word) :
    SameProgramView (s.writeResult d v) (s'.writeResult d v) := (h.setReg d v).advance

/-- The load path is the caches' own: what it does on either side cannot be seen (R26, R71). -/
theorem SameProgramView.loadPath (h : SameProgramView s s') (a : Addr) : SameProgramView (s.loadPath a) (s'.loadPath a) := by
  simpa [SameProgramView] using h

/-- Nor can what the store path does. -/
theorem SameProgramView.storePath (h : SameProgramView s s') (a : Addr) :
    SameProgramView (s.storePath a) (s'.storePath a) := by
  simpa [SameProgramView] using h

theorem SameProgramView.retire (h : SameProgramView s s') : SameProgramView s.retire s'.retire := by
  refine ⟨fun r => ?_, ?_⟩
  · by_cases hr : r = zeroRegister
    · simp [hr]
    · simp [hr, h.reg]
  · obtain ⟨-, hpc, hmem, hhalted, hparams⟩ := h
    simp [hpc, hmem, hhalted, hparams]

/-! ### Every instruction keeps views equal -/

/-- An instruction reads nothing outside the view, so that equal views stay equal. -/
theorem exec_sameProgramView (i : Instr) (t : State) (h : SameProgramView s s') (hx : exec i s = .next t) :
    ∃ t', exec i s' = .next t' ∧ SameProgramView t t' := by
  have ⟨hrole, _, hslti, hslt⟩ := h.params
  cases i with
  | add ra rb rc | sub ra rb rc | or ra rb rc | and ra rb rc =>
    cases hx
    refine ⟨_, rfl, ?_⟩
    rw [h.reg, h.reg]
    exact h.writeResult _ _
  | slt ra rb rc =>
    cases hx
    refine ⟨_, rfl, ?_⟩
    rw [hrole, hslt, h.reg, h.reg]
    exact h.writeResult _ _
  | jr ra rb rc =>
    cases hx
    refine ⟨_, rfl, ?_⟩
    rw [hrole, h.reg]
    exact h.setPc _
  | addi ra rb imm =>
    cases hx
    refine ⟨_, rfl, ?_⟩
    rw [h.reg]
    exact h.writeResult _ _
  | slti ra rb imm =>
    cases hx
    refine ⟨_, rfl, ?_⟩
    rw [hslti, h.reg]
    exact h.writeResult _ _
  | j target =>
    simp only [exec, execJ, h.pc] at hx ⊢
    split at hx <;> cases hx
    · exact ⟨_, if_pos ‹_›, h.halt⟩
    · exact ⟨_, if_neg ‹_›, h.setPc _⟩
  | jal target =>
    cases hx
    refine ⟨_, rfl, ?_⟩
    rw [State.linkValue, State.linkValue, h.pc]
    exact (h.setReg _ _).setPc _
  | lw ra rb imm =>
    cases hx
    refine ⟨_, rfl, ?_⟩
    rw [h.effectiveAddress, h.readWord]
    exact (h.loadPath _).writeResult _ _
  | sw ra rb imm =>
    cases hx
    refine ⟨_, rfl, ?_⟩
    rw [h.effectiveAddress, h.reg]
    exact ((h.writeWord _ _).storePath _).advance
  | jeq ra rb imm =>
    simp only [exec, execJeq, h.reg, State.branchTarget, h.pc] at hx ⊢
    split at hx <;> cases hx
    · exact ⟨_, if_pos ‹_›, h.setPc _⟩
    · exact ⟨_, if_neg ‹_›, h.advance⟩
  | reserved0101 _ | reserved011x _ _ | reserved1001 _ | reserved101x _ _ | reserved11xx _ _ =>
    cases hx
    exact ⟨_, rfl, h.advance⟩

end View

/-- Settles O35: both machines have halted or both run, and then run the same instruction, which keeps the views equal, as does
the end of the step. -/
theorem programViewIsIndependentOfTheCaches : Obligations.ProgramViewIsIndependentOfTheCaches := by
  intro s s' t h hvalid hstep
  obtain ⟨-, ⟨hhalted, rfl⟩ | ⟨hrun, u, hu, rfl⟩⟩ := step_next_cases s t hstep
  · exact ⟨s', step_of_halted s' hvalid (h.halted.trans hhalted), h⟩
  · obtain ⟨u', hu', hview⟩ := exec_sameProgramView s.currentInstr u h hu
    rw [← h.currentInstr] at hu'
    exact ⟨u'.retire, step_of_exec s' u' hvalid (h.halted.trans hrun) hu', hview.retire⟩

/-! ### Stored instructions (R43) -/

/-- What sw leaves in the part of the state that the next fetch reads. -/
theorem exec_sw_fetch (s t : State) (ra rb : RegIdx) (imm : Imm7) (hm : s.mem.wf) (h : exec (.sw ra rb imm) s = .next t) :
    t.pc = s.pc + 1#13 ∧ t.readWord (s.effectiveAddress ra imm) = s.reg rb ∧ t.params = s.params := by
  cases h
  simp [State.readWord_writeWord_same s hm]

/-- Settles O46: the end of the step leaves pc, memory and parameters as sw left them, and there the stored word stands at pc. -/
theorem aStoredWordIsFetchedAtOnce : Obligations.AStoredWordIsFetchedAtOnce := by
  intro s t ra rb imm hm hrun hdecode hea hstep
  obtain ⟨-, ⟨hhalted, -⟩ | ⟨-, u, hu, rfl⟩⟩ := step_next_cases s t hstep
  · simp [hrun] at hhalted
  · have hinstr : s.currentInstr = .sw ra rb imm := hdecode
    obtain ⟨hpc, hword, hparams⟩ := exec_sw_fetch s u ra rb imm hm (hinstr ▸ hu)
    have hfetch : u.retire.fetch = s.reg rb := by
      rw [State.fetch, State.retire_readWord, State.retire_pc, hpc, ← hea, hword]
    refine ⟨u.retire_pc.trans hpc, hfetch, ?_⟩
    rw [State.currentInstr, hfetch, State.retire_params, hparams]

end Sys2Proof.Machine

/-! SUPPORT. The layout of the instruction word and the decoder, with the proofs of the five statements of spec/30_encoding.md:
decoding and encoding invert each other, the decoder follows the opcode table, and the two pairings of R56 agree on sw alone. -/

namespace Sys2Proof

/-! ### The fields of a word in each format (R47 to R50) -/

section Layout

open BitVec

variable (op ra rb rc : BitVec 3) (func : BitVec 4) (imm : Imm7) (target : Addr) (ignored : BitVec 9) (w : Word)

theorem formatI_eq_formatJ : formatI op ra rb imm = formatJ op (ra ++ (rb ++ imm)) := by
  rw [formatI, append_assoc, append_assoc]
  rfl

theorem formatR_eq_formatI : formatR ra rb rc func = formatI 0b000#3 ra rb (rc ++ func) := by
  rw [formatR, append_assoc]
  rfl

theorem formatReserved_eq_formatJ : formatReserved ignored func = formatJ 0b000#3 (ignored ++ func) := by
  rw [formatReserved, append_assoc]
  rfl

@[simp] theorem opField_formatJ : opField (formatJ op target) = op := extractLsb'_append_eq_left

@[simp] theorem targetField_formatJ : targetField (formatJ op target) = target := extractLsb'_append_eq_right

@[simp] theorem opField_formatI : opField (formatI op ra rb imm) = op := by
  rw [formatI_eq_formatJ, opField_formatJ]

@[simp] theorem raField_formatI : raField (formatI op ra rb imm) = ra :=
  (extractLsb'_append_eq_of_le (by decide)).trans <|
    (extractLsb'_append_eq_of_le (by decide)).trans extractLsb'_append_eq_right

@[simp] theorem rbField_formatI : rbField (formatI op ra rb imm) = rb :=
  (extractLsb'_append_eq_of_le (by decide)).trans extractLsb'_append_eq_right

@[simp] theorem immField_formatI : immField (formatI op ra rb imm) = imm := extractLsb'_append_eq_right

@[simp] theorem opField_formatR : opField (formatR ra rb rc func) = 0b000#3 := by
  rw [formatR_eq_formatI, opField_formatI]

@[simp] theorem raField_formatR : raField (formatR ra rb rc func) = ra := by
  rw [formatR_eq_formatI, raField_formatI]

@[simp] theorem rbField_formatR : rbField (formatR ra rb rc func) = rb := by
  rw [formatR_eq_formatI, rbField_formatI]

@[simp] theorem rcField_formatR : rcField (formatR ra rb rc func) = rc :=
  (extractLsb'_append_eq_of_le (by decide)).trans extractLsb'_append_eq_right

@[simp] theorem funcField_formatR : funcField (formatR ra rb rc func) = func := extractLsb'_append_eq_right

@[simp] theorem opField_formatReserved : opField (formatReserved ignored func) = 0b000#3 := by
  rw [formatReserved_eq_formatJ, opField_formatJ]

@[simp] theorem ignoredField_formatReserved : ignoredField (formatReserved ignored func) = ignored :=
  (extractLsb'_append_eq_of_le (by decide)).trans extractLsb'_append_eq_right

@[simp] theorem funcField_formatReserved : funcField (formatReserved ignored func) = func := extractLsb'_append_eq_right

/-! A word is put together again from the fields of each format. -/

theorem formatJ_fields : formatJ (opField w) (targetField w) = w :=
  (extractLsb'_append_extractLsb'_eq_extractLsb' rfl).trans extractLsb'_eq_self

theorem rcField_append_funcField : rcField w ++ funcField w = immField w := extractLsb'_append_extractLsb'_eq_extractLsb' rfl

theorem ignoredField_append_funcField : ignoredField w ++ funcField w = targetField w :=
  extractLsb'_append_extractLsb'_eq_extractLsb' rfl

theorem registerFields_append_immField : raField w ++ (rbField w ++ immField w) = targetField w := by
  have hlow : rbField w ++ immField w = w.extractLsb' 0 10 := extractLsb'_append_extractLsb'_eq_extractLsb' rfl
  rw [hlow]
  exact extractLsb'_append_extractLsb'_eq_extractLsb' rfl

theorem formatI_fields : formatI (opField w) (raField w) (rbField w) (immField w) = w := by
  rw [formatI_eq_formatJ, registerFields_append_immField, formatJ_fields]

theorem formatR_fields (h : opField w = 0b000#3) :
    formatR (raField w) (rbField w) (rcField w) (funcField w) = w := by
  rw [formatR_eq_formatI, ← h, rcField_append_funcField, formatI_fields]

theorem formatReserved_fields (h : opField w = 0b000#3) : formatReserved (ignoredField w) (funcField w) = w := by
  rw [formatReserved_eq_formatJ, ← h, ignoredField_append_funcField, formatJ_fields]

/-- The bits by which the reserved rows are told apart are bits of the function code. -/
theorem extractLsb'_formatReserved {start len : Nat} (h : start + len ≤ 4) :
    (formatReserved ignored func).extractLsb' start len = func.extractLsb' start len :=
  extractLsb'_append_eq_of_add_le h

end Layout

/-! ### The decoder by class (R55 to R57) -/

/-- The instruction of a format R operation. -/
def RegOp.instr : RegOp → RegIdx → RegIdx → RegIdx → Instr
  | .add => .add
  | .sub => .sub
  | .or  => .or
  | .and => .and
  | .slt => .slt
  | .jr  => .jr

/-- The instruction of a format I operation. -/
def ImmOp.instr : ImmOp → RegIdx → RegIdx → Imm7 → Instr
  | .addi => .addi
  | .lw   => .lw
  | .sw   => .sw
  | .jeq  => .jeq
  | .slti => .slti

theorem encode_regInstr (m : ImmOpcodeMap) (op : RegOp) (ra rb rc : RegIdx) :
    encode m (op.instr ra rb rc) = formatR ra rb rc (funcCode op) := by
  cases op <;> rfl

theorem encode_immInstr (m : ImmOpcodeMap) (op : ImmOp) (ra rb : RegIdx) (imm : Imm7) :
    encode m (op.instr ra rb imm) = formatI (immOpcode m op) ra rb imm := by
  cases op <;> rfl

theorem immInstr_inj (op op' : ImmOp) (ra rb : RegIdx) (imm : Imm7) :
    op.instr ra rb imm = op'.instr ra rb imm ↔ op = op' := by
  cases op <;> cases op' <;> simp [ImmOp.instr]

/-- No immediate-class opcode is that of format R or of a jump (R56). -/
theorem immOpcode_ne (m : ImmOpcodeMap) (op : ImmOp) :
    immOpcode m op ≠ 0b000#3 ∧ immOpcode m op ≠ 0b010#3 ∧ immOpcode m op ≠ 0b011#3 := by
  cases m <;> cases op <;> decide

/-- Every other opcode is in the immediate class (R56). -/
theorem exists_immOpcode (m : ImmOpcodeMap) (o : BitVec 3) (hr : o ≠ 0b000#3) (hj : o ≠ 0b010#3) (hjal : o ≠ 0b011#3) :
    ∃ op, o = immOpcode m op := by
  have h : o = 0b001#3 ∨ o = 0b100#3 ∨ o = 0b101#3 ∨ o = 0b110#3 ∨ o = 0b111#3 := by revert o; decide
  cases m
  case published =>
    rcases h with rfl | rfl | rfl | rfl | rfl
    exacts [⟨.addi, rfl⟩, ⟨.lw, rfl⟩, ⟨.sw, rfl⟩, ⟨.jeq, rfl⟩, ⟨.slti, rfl⟩]
  case positional =>
    rcases h with rfl | rfl | rfl | rfl | rfl
    exacts [⟨.jeq, rfl⟩, ⟨.slti, rfl⟩, ⟨.sw, rfl⟩, ⟨.addi, rfl⟩, ⟨.lw, rfl⟩]

/-- The function codes that FUNC_MAP assigns (R55). -/
def assignedFuncCodes : List (BitVec 4) := [RegOp.add, .sub, .or, .and, .slt, .jr].map funcCode

theorem mem_assignedFuncCodes (func : BitVec 4) : func ∈ assignedFuncCodes ↔ ∃ op, func = funcCode op := by
  constructor
  · intro h
    obtain ⟨op, -, hop⟩ := List.mem_map.1 h
    exact ⟨op, hop.symm⟩
  · rintro ⟨op, rfl⟩
    cases op <;> decide

theorem funcCode_ne_of_unassigned {func : BitVec 4} (h : func ∉ assignedFuncCodes) (op : RegOp) : func ≠ funcCode op :=
  fun hop => h ((mem_assignedFuncCodes func).2 ⟨op, hop⟩)

section Decode

variable (m : ImmOpcodeMap) {w : Word}

theorem decode_of_j (h : opField w = 0b010#3) : decode m w = .j (targetField w) := by simp [decode, h]

theorem decode_of_jal (h : opField w = 0b011#3) : decode m w = .jal (targetField w) := by simp [decode, h]

theorem decode_of_register (h : opField w = 0b000#3) : decode m w = decodeRegister w := by simp [decode, h]

theorem decode_of_immOpcode (op : ImmOp) (h : opField w = immOpcode m op) :
    decode m w = op.instr (raField w) (rbField w) (immField w) := by
  obtain ⟨hr, hj, hjal⟩ := immOpcode_ne m op
  have hclass : decode m w = decodeImmediate m w := by simp [decode, h, hr, hj, hjal]
  rw [hclass, decodeImmediate, h]
  cases m <;> cases op <;> simp [immOpcode, ImmOp.instr]

theorem decodeRegister_of_funcCode (op : RegOp) (h : funcField w = funcCode op) :
    decodeRegister w = op.instr (raField w) (rbField w) (rcField w) := by
  rw [decodeRegister, h]
  cases op <;> simp [funcCode, RegOp.instr]

theorem decodeRegister_of_unassigned (h : funcField w ∉ assignedFuncCodes) : decodeRegister w = decodeReserved w := by
  simp [decodeRegister, funcCode_ne_of_unassigned h]

end Decode

/-! ### The reserved function codes (R58, R111) -/

/-- A function code that FUNC_MAP does not assign is in one of the table's five reserved rows (R58). -/
theorem unassigned_cases : ∀ func ∉ assignedFuncCodes,
    func = 0b0101#4 ∨ (∃ x : BitVec 1, func = 0b011#3 ++ x) ∨ func = 0b1001#4 ∨
    (∃ x : BitVec 1, func = 0b101#3 ++ x) ∨ ∃ x : BitVec 2, func = 0b11#2 ++ x := by
  decide

section Reserved

variable (m : ImmOpcodeMap) (ignored : BitVec 9)

theorem decode_formatReserved (func : BitVec 4) (h : func ∉ assignedFuncCodes) :
    decode m (formatReserved ignored func) = decodeReserved (formatReserved ignored func) := by
  rw [decode_of_register m (by simp), decodeRegister_of_unassigned (by simpa using h)]

theorem decode_reserved0101 : decode m (formatReserved ignored 0b0101#4) = .reserved0101 ignored := by
  rw [decode_formatReserved m ignored _ (by decide)]
  simp [decodeReserved]

theorem decode_reserved011x (x : BitVec 1) :
    decode m (formatReserved ignored (0b011#3 ++ x)) = .reserved011x ignored x := by
  have hne : (0b011#3 ++ x : BitVec 4) ≠ 0b0101#4 := by revert x; decide
  have hhi : (0b011#3 ++ x : BitVec 4).extractLsb' 1 3 = 0b011#3 := BitVec.extractLsb'_append_eq_left
  have hlo : (0b011#3 ++ x : BitVec 4).extractLsb' 0 1 = x := BitVec.extractLsb'_append_eq_right
  rw [decode_formatReserved m ignored _ (by revert x; decide)]
  simp [decodeReserved, extractLsb'_formatReserved, hne, hhi, hlo]

theorem decode_reserved1001 : decode m (formatReserved ignored 0b1001#4) = .reserved1001 ignored := by
  rw [decode_formatReserved m ignored _ (by decide)]
  simp [decodeReserved, extractLsb'_formatReserved]

theorem decode_reserved101x (x : BitVec 1) :
    decode m (formatReserved ignored (0b101#3 ++ x)) = .reserved101x ignored x := by
  have hne : (0b101#3 ++ x : BitVec 4) ≠ 0b0101#4 ∧ (0b101#3 ++ x : BitVec 4) ≠ 0b1001#4 := by revert x; decide
  have hhi : (0b101#3 ++ x : BitVec 4).extractLsb' 1 3 = 0b101#3 := BitVec.extractLsb'_append_eq_left
  have hlo : (0b101#3 ++ x : BitVec 4).extractLsb' 0 1 = x := BitVec.extractLsb'_append_eq_right
  rw [decode_formatReserved m ignored _ (by revert x; decide)]
  simp [decodeReserved, extractLsb'_formatReserved, hne, hhi, hlo]

theorem decode_reserved11xx (x : BitVec 2) :
    decode m (formatReserved ignored (0b11#2 ++ x)) = .reserved11xx ignored x := by
  have hne : (0b11#2 ++ x : BitVec 4) ≠ 0b0101#4 ∧ (0b11#2 ++ x : BitVec 4) ≠ 0b1001#4 := by revert x; decide
  have hhi : (0b11#2 ++ x : BitVec 4).extractLsb' 1 3 ≠ 0b011#3 ∧ (0b11#2 ++ x : BitVec 4).extractLsb' 1 3 ≠ 0b101#3 := by
    revert x; decide
  have hlo : (0b11#2 ++ x : BitVec 4).extractLsb' 0 2 = x := BitVec.extractLsb'_append_eq_right
  rw [decode_formatReserved m ignored _ (by revert x; decide)]
  simp [decodeReserved, extractLsb'_formatReserved, hne, hhi, hlo]

/-- Every word of a reserved function code is the word of an instruction (R58). -/
theorem exists_encode_eq_formatReserved (func : BitVec 4) (h : func ∉ assignedFuncCodes) :
    ∃ i, encode m i = formatReserved ignored func := by
  rcases unassigned_cases func h with rfl | ⟨x, rfl⟩ | rfl | ⟨x, rfl⟩ | ⟨x, rfl⟩
  · exact ⟨.reserved0101 ignored, rfl⟩
  · exact ⟨.reserved011x ignored x, rfl⟩
  · exact ⟨.reserved1001 ignored, rfl⟩
  · exact ⟨.reserved101x ignored x, rfl⟩
  · exact ⟨.reserved11xx ignored x, rfl⟩

end Reserved

/-! ### Decoding and encoding invert each other -/

theorem decode_encode_regInstr (m : ImmOpcodeMap) (op : RegOp) (ra rb rc : RegIdx) :
    decode m (encode m (op.instr ra rb rc)) = op.instr ra rb rc := by
  rw [encode_regInstr, decode_of_register m (by simp), decodeRegister_of_funcCode op (by simp)]
  simp

theorem decode_encode_immInstr (m : ImmOpcodeMap) (op : ImmOp) (ra rb : RegIdx) (imm : Imm7) :
    decode m (encode m (op.instr ra rb imm)) = op.instr ra rb imm := by
  rw [encode_immInstr, decode_of_immOpcode m op (by simp)]
  simp

/-- Settles O1: each class of instructions is read back by its opcode and its function code, field by field. -/
theorem decodeOfEncodeIsTheInstruction : Obligations.DecodeOfEncodeIsTheInstruction := by
  intro m i
  cases i with
  | add ra rb rc => exact decode_encode_regInstr m .add ra rb rc
  | sub ra rb rc => exact decode_encode_regInstr m .sub ra rb rc
  | or ra rb rc => exact decode_encode_regInstr m .or ra rb rc
  | and ra rb rc => exact decode_encode_regInstr m .and ra rb rc
  | slt ra rb rc => exact decode_encode_regInstr m .slt ra rb rc
  | jr ra rb rc => exact decode_encode_regInstr m .jr ra rb rc
  | addi ra rb imm => exact decode_encode_immInstr m .addi ra rb imm
  | j target => simp [encode, decode_of_j]
  | jal target => simp [encode, decode_of_jal]
  | lw ra rb imm => exact decode_encode_immInstr m .lw ra rb imm
  | sw ra rb imm => exact decode_encode_immInstr m .sw ra rb imm
  | jeq ra rb imm => exact decode_encode_immInstr m .jeq ra rb imm
  | slti ra rb imm => exact decode_encode_immInstr m .slti ra rb imm
  | reserved0101 ignored => exact decode_reserved0101 m ignored
  | reserved011x ignored x => exact decode_reserved011x m ignored x
  | reserved1001 ignored => exact decode_reserved1001 m ignored
  | reserved101x ignored x => exact decode_reserved101x m ignored x
  | reserved11xx ignored x => exact decode_reserved11xx m ignored x

/-- Every word is the word of an instruction: there is no illegal word (R57, R60). -/
theorem encode_surjective (m : ImmOpcodeMap) : Function.Surjective (encode m) := by
  intro w
  by_cases hj : opField w = 0b010#3
  · exact ⟨.j (targetField w), by rw [encode, ← hj, formatJ_fields]⟩
  by_cases hjal : opField w = 0b011#3
  · exact ⟨.jal (targetField w), by rw [encode, ← hjal, formatJ_fields]⟩
  by_cases hr : opField w = 0b000#3
  · by_cases hfunc : funcField w ∈ assignedFuncCodes
    · obtain ⟨op, hop⟩ := (mem_assignedFuncCodes _).1 hfunc
      exact ⟨op.instr (raField w) (rbField w) (rcField w), by rw [encode_regInstr, ← hop, formatR_fields w hr]⟩
    · obtain ⟨i, hi⟩ := exists_encode_eq_formatReserved m (ignoredField w) (funcField w) hfunc
      exact ⟨i, hi.trans (formatReserved_fields w hr)⟩
  · obtain ⟨op, hop⟩ := exists_immOpcode m (opField w) hr hj hjal
    exact ⟨op.instr (raField w) (rbField w) (immField w), by rw [encode_immInstr, ← hop, formatI_fields]⟩

/-- Settles O2: the word is that of some instruction, and that instruction is what the word decodes to. -/
theorem encodeOfDecodeIsTheWord : Obligations.EncodeOfDecodeIsTheWord := by
  intro m w
  obtain ⟨i, rfl⟩ := encode_surjective m w
  rw [decodeOfEncodeIsTheInstruction m i]

/-! ### The opcode table -/

theorem tableRow_of_instr (i : Instr) : Laws.TableRow.Statement i := by
  cases i with
  | add ra rb rc => exact Laws.TableRow.add ra rb rc
  | sub ra rb rc => exact Laws.TableRow.sub ra rb rc
  | or ra rb rc => exact Laws.TableRow.or ra rb rc
  | and ra rb rc => exact Laws.TableRow.and ra rb rc
  | slt ra rb rc => exact Laws.TableRow.slt ra rb rc
  | jr ra rb rc => exact Laws.TableRow.jr ra rb rc
  | addi ra rb imm => exact Laws.TableRow.addi ra rb imm
  | j target => exact Laws.TableRow.j target
  | jal target => exact Laws.TableRow.jal target
  | lw ra rb imm => exact Laws.TableRow.lw ra rb imm
  | sw ra rb imm => exact Laws.TableRow.sw ra rb imm
  | jeq ra rb imm => exact Laws.TableRow.jeq ra rb imm
  | slti ra rb imm => exact Laws.TableRow.slti ra rb imm
  | reserved0101 ignored => exact Laws.TableRow.reserved0101 ignored
  | reserved011x ignored x => exact Laws.TableRow.reserved011x ignored x
  | reserved1001 ignored => exact Laws.TableRow.reserved1001 ignored
  | reserved101x ignored x => exact Laws.TableRow.reserved101x ignored x
  | reserved11xx ignored x => exact Laws.TableRow.reserved11xx ignored x

/-- A word fits the row of the instruction it decodes to. -/
theorem decode_row (w : Word) :
    ∃ r ∈ opcodeTable, r.mnemonic = (decode tableImmOpcodeMap w).mnemonic ∧ r.fits w := by
  have h := tableRow_of_instr (decode tableImmOpcodeMap w)
  rwa [Laws.TableRow.Statement, encodeOfDecodeIsTheWord] at h

theorem row_eq_of_mnemonic_eq :
    ∀ r ∈ opcodeTable, ∀ r' ∈ opcodeTable, r.mnemonic = r'.mnemonic → r = r' := by
  decide

/-- Two different rows disagree on a bit that both masks select. -/
theorem row_eq_of_patterns_agree :
    ∀ r ∈ opcodeTable, ∀ r' ∈ opcodeTable, r.pattern &&& r'.mask = r'.pattern &&& r.mask → r = r' := by
  decide

/-- No word fits two rows of the table. -/
theorem row_eq_of_fits {r r' : TableRow} {w : Word} (hr : r ∈ opcodeTable) (hr' : r' ∈ opcodeTable)
    (h : r.fits w) (h' : r'.fits w) : r = r' := by
  refine row_eq_of_patterns_agree r hr r' hr' ?_
  calc r.pattern &&& r'.mask
    _ = w &&& r.mask &&& r'.mask := by rw [← h]
    _ = w &&& r'.mask &&& r.mask := by ac_rfl
    _ = r'.pattern &&& r.mask := by rw [← h']

/-- Settles O3: a word fits the row of its instruction, and neither a word nor a mnemonic has a second row. -/
theorem decodeFollowsTheOpcodeTable : Obligations.DecodeFollowsTheOpcodeTable := by
  intro w r hr
  obtain ⟨r', hr', hmnemonic, hfits⟩ := decode_row w
  constructor
  · intro h
    rwa [row_eq_of_mnemonic_eq r hr r' hr' (h.symm.trans hmnemonic.symm)]
  · intro h
    rw [row_eq_of_fits hr hr' h hfits, hmnemonic]

/-! ### The two pairings (R56) -/

/-- An opcode selects one operation under both pairings iff it is that of sw. -/
theorem pairings_agree_iff (op op' : ImmOp) (h : immOpcode .published op = immOpcode .positional op') :
    op = op' ↔ immOpcode .published op = 0b101#3 := by
  revert h
  cases op <;> cases op' <;> decide

/-- Settles O4: outside the immediate class the decoder does not consult the pairing, and inside it the opcode selects one
operation by each pairing. -/
theorem pairingsAgreeInTheImmediateClassOnlyOnSw : Obligations.PairingsAgreeInTheImmediateClassOnlyOnSw := by
  intro w
  by_cases hj : opField w = 0b010#3
  · simp [decode_of_j, hj]
  by_cases hjal : opField w = 0b011#3
  · simp [decode_of_jal, hjal]
  by_cases hr : opField w = 0b000#3
  · simp [decode_of_register, hr]
  · obtain ⟨op, hop⟩ := exists_immOpcode .published (opField w) hr hj hjal
    obtain ⟨op', hop'⟩ := exists_immOpcode .positional (opField w) hr hj hjal
    rw [decode_of_immOpcode .published op hop, decode_of_immOpcode .positional op' hop', immInstr_inj,
      pairings_agree_iff op op' (hop.symm.trans hop'), ← hop]
    simp [hr, hj, hjal]

/-! ### The words of the vectors -/

/-- The decoder of the table's words reads an instruction from its own word. -/
theorem decodeTableWord_encode (i : Instr) : decodeTableWord 16 (encode tableImmOpcodeMap i).toNat = some i := by
  have hword : (encode tableImmOpcodeMap i).toNat % 2 ^ 16 = (encode tableImmOpcodeMap i).toNat :=
    Nat.mod_eq_of_lt (encode tableImmOpcodeMap i).isLt
  rw [decodeTableWord, if_pos le_rfl, hword, BitVec.ofNat_toNat, BitVec.setWidth_eq, decodeOfEncodeIsTheInstruction]

/-- Settles O5: each sample word is the encoding of the instruction it stands for. -/
theorem sampleWordsDecode : Obligations.SampleWordsDecode :=
  ⟨decodeTableWord_encode (.add 2 1 2), decodeTableWord_encode (.sub 1 2 3),
    decodeTableWord_encode (.slt 1 2 3), decodeTableWord_encode (.jr 7 7 0),
    decodeTableWord_encode (.reserved11xx 0 3), decodeTableWord_encode (.j 2),
    decodeTableWord_encode (.jal 7), decodeTableWord_encode (.addi 1 1 0x7F),
    decodeTableWord_encode (.lw 0 2 40), decodeTableWord_encode (.sw 0 1 40),
    decodeTableWord_encode (.jeq 1 0 3), decodeTableWord_encode (.slti 3 6 3)⟩

end Sys2Proof

/-! SUPPORT. The cache hierarchy, with the proofs of the statements of spec/40_cache.md: how an address, a descriptor and a launch
are made up, what an access does to its row and its level, and what loads and stores do to the levels, the events and memory. -/

namespace Sys2Proof.Machine

/-! ### Addresses, descriptors and launches (R63, R64) -/

/-- Two addresses are of one block iff they have the same row and tag (R64). -/
theorem blockId_eq_iff (d : Descriptor) (a b : Addr) :
    blockId d a = blockId d b ↔ rowIndex d a = rowIndex d b ∧ tagOf d a = tagOf d b := by
  constructor
  · intro h
    rw [rowIndex, rowIndex, tagOf, tagOf, h]
    exact ⟨rfl, rfl⟩
  · rintro ⟨hrow, htag⟩
    rw [← tagOf_mul_rowCount_add_rowIndex, ← tagOf_mul_rowCount_add_rowIndex, hrow, htag]

/-- Settles O22: the row is a remainder, the tag the quotient, and together they give back the block number. -/
theorem rowAndTagDetermineTheBlock : Obligations.RowAndTagDetermineTheBlock := fun d a b h =>
  ⟨rowIndex_lt d a h, rfl, tagOf_mul_rowCount_add_rowIndex d a, blockId_eq_iff d a b⟩

theorem descriptor_valid_iff (d : Descriptor) :
    d.valid = true ↔ 1 ≤ d.size ∧ 1 ≤ d.assoc ∧ 1 ≤ d.blockSize ∧ d.assoc * d.blockSize ∣ d.size := by
  simp [Descriptor.valid, Nat.dvd_iff_mod_eq_zero, and_assoc]

/-- The rows of a valid descriptor account for its whole size (R63). -/
theorem descriptor_rowCount_mul (d : Descriptor) (h : d.valid = true) :
    d.rowCount * (d.assoc * d.blockSize) = d.size := by
  obtain ⟨-, -, -, hdvd⟩ := descriptor_valid_spec d h
  exact Nat.div_mul_cancel hdvd

theorem launchConfig_valid_iff (c : LaunchConfig) :
    c.valid = true ↔ c.l1.valid = true ∧ (∀ d, c.l2 = some d → d.valid = true) ∧ c.pcReset.toNat < 8191 ∧
      c.regReset[0] = 0#16 := by
  have hpc : c.pcReset ≠ lastAddress ↔ c.pcReset.toNat < 8191 := by bv_omega
  have hl2 : c.l2.all Descriptor.valid = true ↔ ∀ d, c.l2 = some d → d.valid = true := by
    cases c.l2 <;> simp
  simp [LaunchConfig.valid, LaunchConfig.pcResetValid, LaunchConfig.regResetValid, hpc, hl2, and_assoc]

theorem launch_exists_iff (c : LaunchConfig) (image : List Word) :
    (∃ s, State.launch c image = some s) ↔ c.valid = true ∧ image.length ≤ 8192 := by
  simp [State.launch, imageFits]

/-- Settles O23: the checks of a descriptor and of a launch, each written as the numbers it bounds. -/
theorem launchExistsExactlyForValidArguments : Obligations.LaunchExistsExactlyForValidArguments := by
  refine ⟨fun d => ⟨descriptor_valid_iff d, fun h => ⟨descriptor_rowCount_pos d h, descriptor_rowCount_mul d h⟩⟩, ?_⟩
  intro c image
  simp only [launch_exists_iff, launchConfig_valid_iff, and_assoc]

/-! ### What an operation does to a row (R67 to R74) -/

/-- Filtering out a tag takes away as many tags as it occurs (R67, `all_occurrences`). -/
theorem length_filter_ne_add_count (row : Row) (t : Tag) :
    (row.filter (fun u => decide (u ≠ t))).length + row.count t = row.length := by
  have hcount : row.count t = (row.filter (fun u => !decide (u ≠ t))).length := by
    simp [List.count_eq_length_filter, beq_eq_decide]
  rw [hcount]
  exact (List.length_eq_length_filter_add _).symm

/-- Settles O24: erasing takes out the occurrence nearest the head, filtering takes out all of them. -/
theorem lookupMovesTheTagToTheTail : Obligations.LookupMovesTheTagToTheTail := by
  intro p row t
  refine ⟨rowLookup_of_not_mem p row t, ?_, ?_⟩
  · rintro ht rfl
    obtain ⟨before, after, hnot, hrow, herase⟩ := List.exists_erase_eq ht
    exact ⟨before, after, hrow, hnot, by rw [rowLookup_first row t ht, herase]⟩
  · rintro ht rfl
    exact ⟨_, rowLookup_all row t ht, by simp, List.filter_sublist, length_filter_ne_add_count row t,
      fun u hu => List.count_filter (by simpa using hu)⟩

/-- A row of capacity 1 holds a tag iff it is that tag alone (R69). -/
theorem mem_row_of_capacity_one (row : Row) (t : Tag) (h : row.length ≤ 1) : t ∈ row ↔ row = [t] := by
  match row, h with
  | [], _ => simp
  | [u], _ => simp [eq_comm]

/-- A read reports a hit iff the row, within its capacity, holds the tag. -/
theorem rowRead_hit_iff (p : Params) (assoc : Nat) (row : Row) (t : Tag) (h : row.length ≤ assoc) :
    (rowRead p assoc row t).1 = .hit ↔ t ∈ row := by
  by_cases h1 : assoc = 1
  · subst h1
    rw [mem_row_of_capacity_one row t h, rowRead_direct, rowDirectReplace]
    split <;> simp [*]
  · by_cases ht : t ∈ row
    · simp [rowRead_of_mem p assoc row t h1 ht, ht]
    · simp [rowRead_of_not_mem p assoc row t h1 ht, ht]

/-- Reading an absent tag inserts it, in a direct-mapped row as in any other. -/
theorem rowRead_absent (p : Params) (assoc : Nat) (row : Row) (t : Tag) (h : row.length ≤ assoc) (ht : t ∉ row) :
    rowRead p assoc row t = (.miss, rowInsert assoc row t) := by
  by_cases h1 : assoc = 1
  · subst h1
    match row, h with
    | [], _ => simp [rowRead_direct, rowDirectReplace, rowInsert]
    | [u], _ =>
      have hu : u ≠ t := fun he => ht (by simp [he])
      simp [rowRead_direct, rowDirectReplace, rowInsert, hu]
  · exact rowRead_of_not_mem p assoc row t h1 ht

/-- A write leaves its tag at the tail, under either policy. -/
theorem rowWrite_getLast? (p : Params) (assoc : Nat) (row : Row) (t : Tag) (ha : 1 ≤ assoc) (h : row.length ≤ assoc) :
    (rowWrite p assoc row t).getLast? = some t := by
  cases hp : p.writePolicy with
  | faithfulDuplicate =>
    obtain ⟨rest, heq, -⟩ := rowWrite_faithful_spec p assoc row t ha h hp
    rw [heq, List.getLast?_concat]
  | insertOnMiss =>
    obtain ⟨rest, heq, -⟩ := rowRead_spec p assoc row t ha h
    rw [rowWrite_insertOnMiss p assoc row t hp, heq, List.getLast?_concat]

/-! ### What an access does to a well-formed level -/

section WellFormedLevel

variable {p : Params} {l : Level}

theorem Level.wf.rowIndex_lt_length (h : l.wf p) (a : Addr) : rowIndex l.desc a < l.rows.length := by
  obtain ⟨hvalid, hlen, -⟩ := h
  exact hlen ▸ rowIndex_lt l.desc a hvalid

theorem Level.wf.row_length_le (h : l.wf p) (a : Addr) : (l.row (rowIndex l.desc a)).length ≤ l.desc.assoc := by
  obtain ⟨hvalid, -, hrows⟩ := h
  obtain ⟨hcap, -⟩ := hrows _ (rowIndex_lt l.desc a hvalid)
  exact hcap

theorem Level.wf.assoc_pos (h : l.wf p) : 1 ≤ l.desc.assoc := by
  obtain ⟨hvalid, -⟩ := h
  obtain ⟨-, hassoc, -⟩ := descriptor_valid_spec l.desc hvalid
  exact hassoc

/-- A read is a hit iff the row of the address holds its tag (R72). -/
theorem Level.wf.readClass_hit_iff (h : l.wf p) (a : Addr) :
    l.readClass p a = .hit ↔ tagOf l.desc a ∈ l.row (rowIndex l.desc a) :=
  rowRead_hit_iff p l.desc.assoc _ _ (h.row_length_le a)

theorem Level.wf.readClass_miss_iff (h : l.wf p) (a : Addr) :
    l.readClass p a = .miss ↔ tagOf l.desc a ∉ l.row (rowIndex l.desc a) := by
  rw [← h.readClass_hit_iff a]
  cases l.readClass p a <;> simp

/-- The row of the address after a read, its access written out (R72). -/
theorem Level.wf.afterRead_row (h : l.wf p) (a : Addr) :
    (l.afterRead p a).row (rowIndex l.desc a) =
      (rowRead p l.desc.assoc (l.row (rowIndex l.desc a)) (tagOf l.desc a)).2 :=
  Level.afterRead_row p l a (h.rowIndex_lt_length a)

/-- The row of the address after a write, its access written out (R73, R74). -/
theorem Level.wf.afterWrite_row (h : l.wf p) (a : Addr) :
    (l.afterWrite p a).row (rowIndex l.desc a) =
      rowWrite p l.desc.assoc (l.row (rowIndex l.desc a)) (tagOf l.desc a) :=
  Level.afterWrite_row p l a (h.rowIndex_lt_length a)

/-- A direct-mapped row holds the tag last read and no other (R69). -/
theorem Level.wf.afterRead_row_direct (h : l.wf p) (h1 : l.desc.assoc = 1) (a : Addr) :
    (l.afterRead p a).row (rowIndex l.desc a) = [tagOf l.desc a] := by
  rw [h.afterRead_row, h1, rowRead_direct, rowDirectReplace_row]

theorem Level.wf.afterWrite_row_direct (h : l.wf p) (h1 : l.desc.assoc = 1) (a : Addr) :
    (l.afterWrite p a).row (rowIndex l.desc a) = [tagOf l.desc a] := by
  rw [h.afterWrite_row, h1, rowWrite_direct]

theorem Level.wf.afterRead_row_of_mem (h : l.wf p) (h1 : l.desc.assoc ≠ 1) (a : Addr)
    (ht : tagOf l.desc a ∈ l.row (rowIndex l.desc a)) :
    (l.afterRead p a).row (rowIndex l.desc a) =
      (rowLookup p.lookupDup (l.row (rowIndex l.desc a)) (tagOf l.desc a)).2 := by
  rw [h.afterRead_row, rowRead_of_mem p _ _ _ h1 ht]

theorem Level.wf.afterRead_row_of_not_mem (h : l.wf p) (a : Addr)
    (ht : tagOf l.desc a ∉ l.row (rowIndex l.desc a)) :
    (l.afterRead p a).row (rowIndex l.desc a) =
      rowInsert l.desc.assoc (l.row (rowIndex l.desc a)) (tagOf l.desc a) := by
  rw [h.afterRead_row, rowRead_absent p _ _ _ (h.row_length_le a) ht]

/-- The block read is the most recently used of its row (R84). -/
theorem Level.wf.afterRead_getLast? (h : l.wf p) (a : Addr) :
    ((l.afterRead p a).row (rowIndex l.desc a)).getLast? = some (tagOf l.desc a) := by
  obtain ⟨rest, heq, -⟩ := rowRead_spec p l.desc.assoc _ (tagOf l.desc a) h.assoc_pos (h.row_length_le a)
  rw [h.afterRead_row, heq, List.getLast?_concat]

/-- The block written is the most recently used of its row (R84). -/
theorem Level.wf.afterWrite_getLast? (h : l.wf p) (a : Addr) :
    ((l.afterWrite p a).row (rowIndex l.desc a)).getLast? = some (tagOf l.desc a) := by
  rw [h.afterWrite_row]
  exact rowWrite_getLast? p _ _ _ h.assoc_pos (h.row_length_le a)

/-- A read of the block that is most recently used in its row is a hit. -/
theorem Level.wf.readClass_hit_of_getLast? (h : l.wf p) {a b : Addr} (hb : blockId l.desc b = blockId l.desc a)
    (hlast : (l.row (rowIndex l.desc a)).getLast? = some (tagOf l.desc a)) : l.readClass p b = .hit := by
  obtain ⟨hrow, htag⟩ := (blockId_eq_iff l.desc b a).1 hb
  rw [h.readClass_hit_iff, hrow, htag]
  exact List.mem_of_getLast? hlast

end WellFormedLevel

/-- Settles O25: the classification and the cases of the row come from the row's read, the rest from the update of one row. -/
theorem cacheReadClassifiesAndFillsTheRow : Obligations.CacheReadClassifiesAndFillsTheRow := by
  intro p l a h
  refine ⟨h.readClass_hit_iff a, fun h1 => h.afterRead_row_direct h1 a, fun h1 ht => h.afterRead_row_of_mem h1 a ht,
    fun _ ht hroom => ?_, fun _ ht lru rest hrow hfull => ?_, h.afterRead_getLast? a,
    fun r' hr' => Level.afterRead_row_ne p l a r' hr', rfl, ?_, ?_⟩
  · exact (h.afterRead_row_of_not_mem a ht).trans (rowInsert_of_length_lt _ _ _ hroom)
  · refine (h.afterRead_row_of_not_mem a ht).trans ((rowInsert_of_le_length _ _ _ hfull.ge).trans ?_)
    exact congrArg (fun row : Row => row.tail ++ [tagOf l.desc a]) hrow
  · rintro s rfl rfl
    rfl
  · rintro s - rfl
    rfl

theorem Level.afterWrite_insertOnMiss (p : Params) (l : Level) (a : Addr) (hp : p.writePolicy = .insertOnMiss) :
    l.afterWrite p a = l.afterRead p a := by
  rw [Level.afterWrite, Level.afterRead, rowWrite_insertOnMiss p _ _ _ hp]

/-- Settles O26: each case is that of the row's write, and only that row is set. -/
theorem cacheWriteFollowsTheWritePolicy : Obligations.CacheWriteFollowsTheWritePolicy := by
  intro p l a h
  exact ⟨fun h1 => h.afterWrite_row_direct h1 a,
    fun h1 hp => (h.afterWrite_row a).trans (rowWrite_faithful p _ _ _ h1 hp),
    Level.afterWrite_insertOnMiss p l a, fun r' hr' => Level.afterWrite_row_ne p l a r' hr', rfl⟩

/-- Settles O27: an access leaves its tag at the tail, where a read of the block finds it. -/
theorem anAccessedBlockIsMostRecentAndHitsNext : Obligations.AnAccessedBlockIsMostRecentAndHitsNext := by
  intro p l a b h hb
  have hread := h.afterRead_getLast? a
  have hwrite := h.afterWrite_getLast? a
  exact ⟨hread, hwrite, (Level.wf_afterRead p l a h).readClass_hit_of_getLast? hb hread,
    (Level.wf_afterWrite p l a h).readClass_hit_of_getLast? hb hwrite⟩

/-! ### Accesses to different rows (R85) -/

/-- An access in general: a function of the associativity, the row of the address and its tag gives the row's new content. -/
def Level.access (f : Nat → Row → Tag → Row) (l : Level) (a : Addr) : Level :=
  l.setRow (rowIndex l.desc a) (f l.desc.assoc (l.row (rowIndex l.desc a)) (tagOf l.desc a))

theorem Level.afterRead_eq_access (p : Params) (l : Level) (a : Addr) :
    l.afterRead p a = l.access (fun k row t => (rowRead p k row t).2) a := rfl

theorem Level.afterWrite_eq_access (p : Params) (l : Level) (a : Addr) :
    l.afterWrite p a = l.access (rowWrite p) a := rfl

theorem Level.setRow_comm (l : Level) (r r' : Nat) (row row' : Row) (h : r ≠ r') :
    (l.setRow r row).setRow r' row' = (l.setRow r' row').setRow r row := by
  simp only [Level.setRow, List.set_comm row row' h]

/-- Accesses to different rows commute, whatever each does to its own. -/
theorem Level.access_comm (f g : Nat → Row → Tag → Row) (l : Level) (a b : Addr)
    (h : rowIndex l.desc a ≠ rowIndex l.desc b) : (l.access f a).access g b = (l.access g b).access f a := by
  simp only [Level.access, Level.setRow_desc, Level.row_setRow_ne _ _ _ _ h, Level.row_setRow_ne _ _ _ _ h.symm]
  exact Level.setRow_comm l _ _ _ _ h

/-- A read is classified alike in two levels of one descriptor that agree on the row of its address. -/
theorem Level.readClass_congr (p : Params) {l l' : Level} (b : Addr) (hd : l'.desc = l.desc)
    (hrow : l'.row (rowIndex l.desc b) = l.row (rowIndex l.desc b)) : l'.readClass p b = l.readClass p b := by
  rw [Level.readClass, Level.readClass, hd, hrow]

/-- Settles O28: reads and writes are accesses of one row each, and a classification looks at one row. -/
theorem accessesToDifferentRowsCommute : Obligations.AccessesToDifferentRowsCommute := by
  intro p l a b h
  simp only [Level.afterRead_eq_access, Level.afterWrite_eq_access]
  exact ⟨Level.access_comm _ _ l a b h, Level.access_comm _ _ l a b h, Level.access_comm _ _ l a b h,
    Level.readClass_congr p b rfl (Level.afterRead_row_ne p l a _ h.symm),
    Level.readClass_congr p b rfl (Level.afterWrite_row_ne p l a _ h.symm)⟩

/-- Settles O29: a direct-mapped row holds the tag accessed last, and blocks of one row differ in their tags. -/
theorem directMappedHitsOnlyTheLastBlock : Obligations.DirectMappedHitsOnlyTheLastBlock := by
  intro p l a b h h1 hempty hrow hblock
  have hread : (l.afterRead p a).wf p := Level.wf_afterRead p l a h
  have htag : tagOf l.desc b ≠ tagOf l.desc a := fun ht => hblock ((blockId_eq_iff l.desc b a).2 ⟨hrow, ht⟩)
  have hfirst : (l.afterRead p a).row (rowIndex l.desc a) = [tagOf l.desc a] := h.afterRead_row_direct h1 a
  have hsecond : ((l.afterRead p a).afterRead p b).row (rowIndex l.desc a) = [tagOf l.desc b] :=
    hrow ▸ hread.afterRead_row_direct h1 b
  refine ⟨(h.readClass_miss_iff a).2 ?_, hread.readClass_hit_of_getLast? rfl (h.afterRead_getLast? a),
    (Level.wf_afterWrite p l a h).readClass_hit_of_getLast? rfl (h.afterWrite_getLast? a),
    (hread.readClass_miss_iff b).2 ?_, hsecond, ((Level.wf_afterRead p _ b hread).readClass_miss_iff a).2 ?_⟩
  · simp [hempty]
  · simp [hrow, hfirst, htag]
  · simp [hsecond, htag.symm]

/-! ### Sequences of accesses in one row (R75, R81) -/

section ReadTags

variable (p : Params) (k : Nat)

theorem readTags_append (row : Row) (ts us : List Tag) :
    readTags p k row (ts ++ us) = ((readTags p k row ts).1 ++ (readTags p k (readTags p k row ts).2 us).1,
      (readTags p k (readTags p k row ts).2 us).2) := by
  induction ts generalizing row with
  | nil => rfl
  | cons t ts ih => simp [readTags, ih]

/-- Reads of distinct tags that the row does not hold, as long as there is room, all miss and line up in order. -/
theorem readTags_distinct (row : Row) (ts : List Tag) (hnd : (row ++ ts).Nodup) (hlen : (row ++ ts).length ≤ k) :
    readTags p k row ts = (List.replicate ts.length .miss, row ++ ts) := by
  induction ts generalizing row with
  | nil => simp [readTags]
  | cons t ts ih =>
    have hsplit : row ++ t :: ts = row ++ [t] ++ ts := by simp
    have hroom : row.length < k := by
      simp only [List.length_append, List.length_cons] at hlen
      omega
    have ht : t ∉ row := fun hm => List.disjoint_of_nodup_append hnd hm (by simp)
    have hread : rowRead p k row t = (.miss, row ++ [t]) := by
      rw [rowRead_absent p k row t hroom.le ht, rowInsert_of_length_lt k row t hroom]
    rw [hsplit] at hnd hlen ⊢
    simp [readTags, hread, ih (row ++ [t]) hnd hlen, List.replicate_succ]

/-- Reading an absent tag in a full row evicts the head. -/
theorem rowRead_evicts (lru : Tag) (rest : Row) (t : Tag) (hfull : (lru :: rest).length = k) (ht : t ∉ lru :: rest) :
    rowRead p k (lru :: rest) t = (.miss, rest ++ [t]) := by
  rw [rowRead_absent p k _ t hfull.le ht, rowInsert_of_le_length k _ t hfull.ge, List.tail_cons]

/-- Reading the head of a row again moves it to the tail. -/
theorem rowRead_head (first : Tag) (others : Row) (hk : k ≠ 1) (h : first ∉ others) :
    rowRead p k (first :: others) first = (.hit, others ++ [first]) := by
  rw [rowRead_of_mem p k _ _ hk (by simp)]
  cases p.lookupDup with
  | firstOccurrence => simp
  | allOccurrences =>
    have hkeep : ∀ u ∈ others, u ≠ first := fun u hu he => h (he ▸ hu)
    simpa using hkeep

end ReadTags

/-- Settles O30: the distinct tags fill the row in order, so that the head is the first of them, or the second once the first has
been read again. -/
theorem leastRecentlyUsedTagIsEvicted : Obligations.LeastRecentlyUsedTagIsEvicted := by
  intro p first others further hnd k
  have hfill : readTags p k [] (first :: others) = (List.replicate k .miss, first :: others) :=
    readTags_distinct p k [] _ hnd.of_append_left le_rfl
  have hfirst : first ∉ others ++ [further] := (List.nodup_cons.1 hnd).1
  have hfurther : further ∉ first :: others := fun hm => List.disjoint_of_nodup_append hnd hm (by simp)
  refine ⟨hfill, ?_, fun hk => ?_⟩
  · have hevict : rowRead p k (first :: others) further = (.miss, others ++ [further]) :=
      rowRead_evicts p k first others further rfl hfurther
    have hagain : (rowRead p k (others ++ [further]) first).1 = .miss := by
      rw [rowRead_absent p k _ first (by simp [k]) hfirst]
    rw [readTags_append, hfill]
    simp [readTags, hevict, hagain, List.replicate_add]
  · obtain ⟨second, rest, rfl⟩ : ∃ second rest, others = second :: rest :=
      List.exists_cons_of_length_pos (by simp only [k, List.length_cons] at hk; omega)
    have hhead : rowRead p k (first :: second :: rest) first = (.hit, second :: rest ++ [first]) :=
      rowRead_head p k first _ (by omega) fun hm => hfirst (List.mem_append_left _ hm)
    have hevict : rowRead p k (second :: rest ++ [first]) further = (.miss, rest ++ [first] ++ [further]) :=
      rowRead_evicts p k second _ further (by simp [k]) fun hm =>
        hfurther ((List.perm_append_singleton first (second :: rest)).mem_iff.1 hm)
    have hagain : (rowRead p k (rest ++ [first] ++ [further]) first).1 = .hit := by
      rw [rowRead_of_mem p k _ first (by omega) (by simp)]
    rw [readTags_append, hfill]
    simp only [readTags, hhead, hevict, hagain]

/-- Erasing a tag takes away at most one of its copies at the tail of the row. -/
theorem erase_keeps_copies (row : Row) (t : Tag) (n : Nat) (h : List.replicate (n + 1) t <:+ row) :
    List.replicate n t <:+ row.erase t := by
  obtain ⟨before, rfl⟩ := h
  by_cases hb : t ∈ before
  · rw [List.erase_append_left _ hb, List.replicate_succ, List.append_cons]
    exact List.suffix_append _ _
  · rw [List.erase_append_right _ hb, List.replicate_succ, List.erase_cons_head]
    exact List.suffix_append _ _

/-- Under `first_occurrence` a lookup keeps the copies of its tag at the tail of the row. -/
theorem rowLookup_keeps_copies (row : Row) (t : Tag) (n : Nat) (h : List.replicate n t <:+ row) :
    List.replicate n t <:+ (rowLookup .firstOccurrence row t).2 := by
  by_cases ht : t ∈ row
  · rw [rowLookup_first row t ht]
    cases n with
    | zero => exact List.nil_suffix
    | succ n =>
      obtain ⟨rest, hrest⟩ := erase_keeps_copies row t n h
      exact ⟨rest, by rw [← hrest, List.replicate_succ', List.append_assoc]⟩
  · rwa [rowLookup_of_not_mem _ row t ht]

/-- An insert adds one copy to those at the tail, where those do not fill the row: the head that a full row
evicts stands before them. -/
theorem rowInsert_adds_copy (k : Nat) (row : Row) (t : Tag) (n : Nat) (hn : n < k) (h : List.replicate n t <:+ row) :
    List.replicate (n + 1) t <:+ rowInsert k row t := by
  obtain ⟨before, rfl⟩ := h
  rw [List.replicate_succ']
  by_cases hroom : (before ++ List.replicate n t).length < k
  · rw [rowInsert_of_length_lt k _ t hroom, List.append_assoc]
    exact List.suffix_append _ _
  · rw [rowInsert_of_le_length k _ t (Nat.not_lt.1 hroom)]
    cases before with
    | nil => simp [hn] at hroom
    | cons u before =>
      rw [List.cons_append, List.tail_cons, List.append_assoc]
      exact List.suffix_append _ _

theorem rowWrite_adds_copy (p : Params) (k : Nat) (row : Row) (t : Tag) (n : Nat) (hw : p.writePolicy = .faithfulDuplicate)
    (hl : p.lookupDup = .firstOccurrence) (hk : k ≠ 1) (hn : n < k) (h : List.replicate n t <:+ row) :
    List.replicate (n + 1) t <:+ rowWrite p k row t := by
  rw [rowWrite_faithful p k row t hk hw, hl]
  exact rowInsert_adds_copy k _ t n hn (rowLookup_keeps_copies row t n h)

/-- After as many writes as complete a row of `n` copies at the tail to `k` of them, the row is `k` copies. -/
theorem writeTagTimes_fills (p : Params) (k : Nat) (t : Tag) (hw : p.writePolicy = .faithfulDuplicate)
    (hl : p.lookupDup = .firstOccurrence) (hk : 2 ≤ k) (m n : Nat) (row : Row) (hmn : n + m = k) (hlen : row.length ≤ k)
    (h : List.replicate n t <:+ row) : writeTagTimes p k t m row = List.replicate k t := by
  induction m generalizing n row with
  | zero =>
    subst hmn
    exact (h.eq_of_length_le (by simpa using hlen)).symm
  | succ m ih =>
    obtain ⟨rest, heq, hrest, -⟩ := rowWrite_faithful_spec p k row t (by omega) hlen hw
    exact ih (n + 1) _ (by omega) (by simpa [heq] using hrest) (rowWrite_adds_copy p k row t n hw hl (by omega) (by omega) h)

/-- Settles O31: every write adds a copy at the tail, and the row never holds more than k tags. -/
theorem repeatedWritesFillTheRow : Obligations.RepeatedWritesFillTheRow := by
  intro p k row t hw hl hk hlen
  exact writeTagTimes_fills p k t hw hl hk k 0 row (by omega) hlen List.nil_suffix

/-! ### The levels and the events of loads and stores (R76, R77) -/

theorem State.loadPath_of_hit (s : State) (a : Addr) (h : s.l1.readClass s.params a = .hit) : s.loadPath a = s.readL1 a := by
  simp [State.loadPath, h]

theorem State.loadPath_of_no_l2 (s : State) (a : Addr) (h : s.l2 = none) : s.loadPath a = s.readL1 a := by
  simp [State.loadPath, h]

theorem State.loadPath_of_miss (s : State) (a : Addr) {l : Level} (hl : s.l2 = some l)
    (h : s.l1.readClass s.params a = .miss) : s.loadPath a = (s.readL1 a).readL2 l a := by
  simp [State.loadPath, h, hl]

theorem State.storePath_of_no_l2 (s : State) (a : Addr) (h : s.l2 = none) : s.storePath a = s.writeL1 a := by
  simp [State.storePath, h]

theorem State.storePath_of_l2 (s : State) (a : Addr) {l : Level} (hl : s.l2 = some l) :
    s.storePath a = (s.writeL1 a).writeL2 l a := by
  simp [State.storePath, hl]

/-- Settles O32: lw leaves the levels and the events that its load path leaves, and each path appends its events in order. -/
theorem loadFallsThroughToL2ExactlyOnAMiss : Obligations.LoadFallsThroughToL2ExactlyOnAMiss := by
  intro s ra rb imm
  refine ⟨_, rfl, ?_⟩
  obtain ⟨hl1, hl2, hevents, -⟩ := exec_lw_sameCaches ra rb imm s _ rfl
  rw [hl1, hl2, hevents]
  refine ⟨s.loadPath_l1 _, fun hhit => ?_, fun hnone => ?_, fun l hl hmiss => ?_⟩
  · rw [s.loadPath_of_hit _ hhit]
    exact ⟨rfl, rfl⟩
  · rw [s.loadPath_of_no_l2 _ hnone]
    exact ⟨rfl, hnone⟩
  · rw [s.loadPath_of_miss _ hl hmiss]
    exact ⟨rfl, List.append_assoc _ _ _⟩

/-- Settles O33: sw leaves the levels and the events that its store path leaves. -/
theorem storeEmitsOneSwEventPerLevel : Obligations.StoreEmitsOneSwEventPerLevel := by
  intro s ra rb imm
  refine ⟨_, rfl, ?_⟩
  obtain ⟨hl1, hl2, hevents, -⟩ := exec_sw_sameCaches ra rb imm s _ rfl
  rw [hl1, hl2, hevents]
  refine ⟨s.storePath_l1 _, fun hnone => ?_, fun l hl => ?_⟩
  · rw [s.storePath_of_no_l2 _ hnone]
    exact ⟨rfl, hnone⟩
  · rw [s.storePath_of_l2 _ hl]
    exact ⟨rfl, List.append_assoc _ _ _⟩

/-! ### Loads after stores (R40, R82) -/

theorem execList_cons_next (i : Instr) (is : List Instr) (s u : State) :
    execList (i :: is) s = .next u ↔ ∃ t, exec i s = .next t ∧ execList is t = .next u := by
  rw [execList]
  cases exec i s <;> simp

theorem execList_mem_wf (is : List Instr) (s t : State) (h : execList is s = .next t) (hs : s.mem.wf) : t.mem.wf := by
  induction is generalizing s with
  | nil =>
    cases h
    exact hs
  | cons i is ih =>
    obtain ⟨u, hu, hrest⟩ := (execList_cons_next i is s t).1 h
    exact ih u hrest (exec_mem_wf i s u hu hs)

/-- An instruction that does not store to an address leaves its word. -/
theorem exec_readWord_of_no_store (i : Instr) (s t : State) (a : Addr) (h : exec i s = .next t)
    (hno : storeAddress i s ≠ some a) : t.readWord a = s.readWord a := by
  rw [State.readWord, State.readWord]
  rcases exec_mem_cases i s t h with ⟨-, hm⟩ | ⟨b, v, hstore, hm⟩ <;> rw [hm]
  exact Memory.read_write_ne s.mem b a v fun hab => hno (hab ▸ hstore)

/-- Instructions none of which stores to an address leave its word (R40). -/
theorem execList_readWord_of_noStoreTo (is : List Instr) (s t : State) (a : Addr) (h : execList is s = .next t)
    (hno : NoStoreTo a is s) : t.readWord a = s.readWord a := by
  induction is generalizing s with
  | nil =>
    cases h
    rfl
  | cons i is ih =>
    obtain ⟨u, hu, hrest⟩ := (execList_cons_next i is s t).1 h
    obtain ⟨hi, his⟩ := hno
    exact (ih u hrest (his u hu)).trans (exec_readWord_of_no_store i s u a hu hi)

/-- lw writes the memory word to its register, past whatever the caches do. -/
theorem exec_lw_regWritten (ra rb : RegIdx) (imm : Imm7) (s t : State) (h : exec (.lw ra rb imm) s = .next t) :
    RegWritten rb (s.readWord (s.effectiveAddress ra imm)).toNat s t := by
  cases h
  obtain ⟨hwritten, -⟩ := writeResult_writesRegister (s.loadPath (s.effectiveAddress ra imm)) rb
    (s.readWord (s.effectiveAddress ra imm)) _ rfl
  simpa [RegWritten, SameRegs, SameRegsExcept] using hwritten

/-- Settles O34: memory is canonical when the store runs, which leaves its word at the address; no instruction up to the load
changes it there. -/
theorem aLoadReturnsTheLastStoredWord : Obligations.ALoadReturnsTheLastStoredWord := by
  intro s s' t u v before between ra rb ra' rb' imm imm' hs hbefore hstore hbetween hno hea hload
  obtain ⟨-, hword, -⟩ := exec_sw_fetch s' t ra rb imm (execList_mem_wf before s s' hbefore hs) hstore
  have hkept : u.readWord (u.effectiveAddress ra' imm') = s'.reg rb := by
    rw [hea, execList_readWord_of_noStoreTo between t u _ hbetween hno, hword]
  exact hkept ▸ exec_lw_regWritten ra' rb' imm' u v hload

end Sys2Proof.Machine

/-! SUPPORT. Every instruction's next state, run status and events, with the proofs of the statements of spec/41_step.md about
one step and about runs of any length. -/

namespace Sys2Proof.Machine

/-! ### The meanings that branch, each as one next state -/

theorem exec_j (target : Addr) (s : State) :
    exec (.j target) s = .next (if target = s.pc then s.halt else s.setPc target) := by
  simp only [exec, execJ]
  split <;> rfl

theorem exec_jeq (ra rb : RegIdx) (imm : Imm7) (s : State) :
    exec (.jeq ra rb imm) s = .next (s.setPc (if s.reg ra = s.reg rb then s.branchTarget imm else s.pc + 1#13)) := by
  simp only [exec, execJeq]
  split <;> rfl

/-- Every instruction has a meaning in every state (R88, R98). -/
theorem exec_exists_next (i : Instr) (s : State) : ∃ t, exec i s = .next t := by
  cases i with
  | j target => exact ⟨_, exec_j target s⟩
  | jeq ra rb imm => exact ⟨_, exec_jeq ra rb imm s⟩
  | _ => exact ⟨_, rfl⟩

/-! ### One step of a running machine -/

/-- Settles O37: a halted machine keeps its state, a running one retires what its instruction gives, and every instruction gives
a next state. -/
theorem everyValidStateHasASuccessor : Obligations.EveryValidStateHasASuccessor := by
  refine fun s => ⟨fun hvalid => ?_, fun hinvalid t h => ?_⟩
  · cases hrun : s.halted with
    | true => exact ⟨s, step_of_halted s hvalid hrun⟩
    | false =>
      obtain ⟨t, ht⟩ := exec_exists_next s.currentInstr s
      exact ⟨t.retire, step_of_exec s t hvalid hrun ht⟩
  · obtain ⟨hvalid, -⟩ := step_next_cases s t h
    simp [hinvalid] at hvalid

/-- The step of a running machine retires the next state of its current instruction. -/
theorem step_next_of_running (s t : State) (hrun : s.halted = false) (h : step s = .next t) :
    ∃ u, exec s.currentInstr s = .next u ∧ t = u.retire := by
  obtain ⟨-, ⟨hhalted, -⟩ | ⟨-, hretire⟩⟩ := step_next_cases s t h
  · simp [hrun] at hhalted
  · exact hretire

/-- Settles O36: the step retires the meaning of the current instruction, and retiring touches register 0 and the run status
alone. -/
theorem stepRunsTheDecodedInstruction : Obligations.StepRunsTheDecodedInstruction := by
  intro s t i hvalid hrun hdecode hexec
  have hinstr : s.currentInstr = i := hdecode
  refine ⟨t.retire, step_of_exec s t hvalid hrun (hinstr ▸ hexec), t.retire_reg_zero, t.retire_reg_of_ne, ?_⟩
  simp

/-- Settles O41: the end of the step forces register 0. -/
theorem registerZeroIsZeroAfterEveryStep : Obligations.RegisterZeroIsZeroAfterEveryStep := by
  intro s t hrun h
  obtain ⟨u, -, rfl⟩ := step_next_of_running s t hrun h
  exact u.retire_reg_zero

/-! ### The end of a run (R91, R92, R94) -/

/-- Only the jump of opcode 010 to its own address ends a run in an instruction's meaning (R91, D18). -/
theorem exec_halted_iff (i : Instr) (s t : State) (h : exec i s = .next t) :
    t.halted = true ↔ s.halted = true ∨ i = .j s.pc := by
  cases i with
  | j target =>
    rw [exec_j] at h
    cases h
    split <;> simp [*]
  | jeq ra rb imm =>
    rw [exec_jeq] at h
    cases h
    simp
  | _ => cases h; simp

/-- Settles O42: the instruction ends the run exactly as a self-jump, and the end of the step exactly at address 8191. -/
theorem runEndsOnlyBySelfJumpOrLastAddress : Obligations.RunEndsOnlyBySelfJumpOrLastAddress := by
  intro s t hrun h
  obtain ⟨u, hu, rfl⟩ := step_next_of_running s t hrun h
  have hself : u.halted = true ↔ s.currentInstr = .j s.pc := by simpa [hrun] using exec_halted_iff _ s u hu
  rw [State.retire_halted, State.retire_pc, Bool.or_eq_true, decide_eq_true_iff, hself]
  rfl

/-- Settles O43: one step answers the halted state itself, so any number of steps does. -/
theorem haltedMachineNeverChanges : Obligations.HaltedMachineNeverChanges :=
  fun s n hvalid hhalted => runSteps_of_fixed s (step_of_halted s hvalid hhalted) n

/-! ### The event stream (R97) -/

/-- The event stream of `t` is that of `s` and then no event, one of L1, or one of L1 and then one of L2, each at the pc of
`s`. -/
def AppendsL1First (s t : State) : Prop :=
  ∃ es : List Event, t.events = s.events ++ es ∧
    es.map (fun e => e.id) ∈ [[], [CacheId.L1], [CacheId.L1, CacheId.L2]] ∧ ∀ e ∈ es, e.pc = s.pc

theorem appendsL1First_of_events_eq {s t : State} (h : t.events = s.events) : AppendsL1First s t :=
  ⟨[], by simp [h]⟩

theorem AppendsL1First.of_events_eq {s t u : State} (h : AppendsL1First s t) (hu : u.events = t.events) :
    AppendsL1First s u := by
  rwa [AppendsL1First, hu]

theorem loadPath_appendsL1First (s : State) (a : Addr) : AppendsL1First s (s.loadPath a) := by
  rcases s.loadPath_cases a with ⟨h, -⟩ | ⟨l, -, -, h⟩ <;> rw [h]
  · exact ⟨[s.l1.readEvent s.params .L1 a s.pc], by simp [Level.readEvent]⟩
  · exact ⟨[s.l1.readEvent s.params .L1 a s.pc, l.readEvent s.params .L2 a s.pc], by simp [Level.readEvent]⟩

theorem storePath_appendsL1First (s : State) (a : Addr) : AppendsL1First s (s.storePath a) := by
  rcases s.storePath_cases a with ⟨-, h⟩ | ⟨l, -, h⟩ <;> rw [h]
  · exact ⟨[s.l1.writeEvent .L1 a s.pc], by simp [Level.writeEvent]⟩
  · exact ⟨[s.l1.writeEvent .L1 a s.pc, l.writeEvent .L2 a s.pc], by simp [Level.writeEvent]⟩

theorem SameCaches.events_eq {s t : State} (h : SameCaches s t) : t.events = s.events :=
  let ⟨_, _, hevents, _⟩ := h
  hevents

/-- An instruction's events are those of its load path, of its store path, or none. -/
theorem exec_appendsL1First (i : Instr) (s t : State) (h : exec i s = .next t) : AppendsL1First s t := by
  rcases exec_cache_cases i s t h with hc | ⟨a, hc | hc⟩
  · exact appendsL1First_of_events_eq hc.events_eq
  · exact (loadPath_appendsL1First s a).of_events_eq hc.events_eq
  · exact (storePath_appendsL1First s a).of_events_eq hc.events_eq

/-- Settles O44: a halted machine emits nothing, a running one what its instruction emits, and the end of the step nothing
more. -/
theorem eventsAreAppendedL1First : Obligations.EventsAreAppendedL1First := by
  intro s t h
  obtain ⟨-, ⟨-, rfl⟩ | ⟨-, u, hu, rfl⟩⟩ := step_next_cases s t h
  · exact appendsL1First_of_events_eq rfl
  · exact (exec_appendsL1First _ s u hu).of_events_eq u.retire_events

/-! ### The branch to itself (R91, R95, D18) -/

/-- Displacement -1 leads back to the branch itself. -/
theorem State.branchTarget_minus_one (s : State) : s.branchTarget 0x7F#7 = s.pc := by
  have hback : 1#13 + wrapAddr (sext16 0x7F#7) = 0#13 := by decide
  rw [State.branchTarget, BitVec.add_assoc, hback, BitVec.add_zero]

/-- The end of a step changes nothing where register 0 is 0 and pc is not 8191. -/
theorem State.retire_of_zero_of_ne_last (s : State) (hzero : s.reg zeroRegister = 0#16) (hpc : s.pc ≠ lastAddress) :
    s.retire = s := by
  rw [State.retire, s.forceZero_of_zero hzero, State.stopAtLast, if_neg hpc]

/-- Settles O47: the taken branch sets pc to where it stands and the end of the step changes nothing, so one step answers the
state itself. -/
theorem selfBranchRunsForEver : Obligations.SelfBranchRunsForEver := by
  intro s ra rb n hinv hrun hdecode heq
  obtain ⟨hzero, -, -, hlast⟩ := s.inv_iff.1 hinv
  have hpc : s.pc ≠ lastAddress := fun hpc => by simp [hlast hpc] at hrun
  have hinstr : s.currentInstr = .jeq ra rb 0x7F#7 := hdecode
  have hexec : exec s.currentInstr s = .next s := by
    rw [hinstr, exec_jeq, if_pos heq, s.branchTarget_minus_one]
    rfl
  have hstep : step s = .next s.retire := step_of_exec s s (s.configValid_of_inv hinv) hrun hexec
  rw [s.retire_of_zero_of_ne_last hzero hpc] at hstep
  exact runSteps_of_fixed s hstep n

end Sys2Proof.Machine

/-! SUPPORT. The words of the jump class and the next states of j and jal, with the proofs of the three statements of
spec/42_jump.md. -/

namespace Sys2Proof

/-! ### The words of the jump class (R48, R53) -/

/-- Mask 0xE000 selects the opcode and nothing else. -/
theorem opField_eq_of_mask {w : Word} {op : BitVec 3} (h : w &&& 0xE000#16 = op ++ 0#13) : opField w = op := by
  rw [← formatJ_fields w, Laws.TableRow.formatJ_mask] at h
  calc opField w
    _ = opField (formatJ (opField w) 0#13) := (opField_formatJ _ _).symm
    _ = opField (formatJ op 0#13) := congrArg opField h
    _ = op := opField_formatJ _ _

theorem targetField_toNat (w : Word) : (targetField w).toNat = w.toNat % 8192 := by
  simp [targetField, BitVec.extractLsb'_toNat]

theorem decode_formatJ_j (m : ImmOpcodeMap) (target : Addr) : decode m (formatJ 0b010#3 target) = .j target := by
  rw [decode_of_j m (opField_formatJ _ _), targetField_formatJ]

theorem decode_formatJ_jal (m : ImmOpcodeMap) (target : Addr) : decode m (formatJ 0b011#3 target) = .jal target := by
  rw [decode_of_jal m (opField_formatJ _ _), targetField_formatJ]

end Sys2Proof

namespace Sys2Proof.Machine

/-! ### The next states of j and jal (R101, R102) -/

theorem exec_j_self (s : State) : exec (.j s.pc) s = .next s.halt := by
  rw [exec_j, if_pos rfl]

theorem exec_j_of_ne {target : Addr} {s : State} (h : target ≠ s.pc) : exec (.j target) s = .next (s.setPc target) := by
  rw [exec_j, if_neg h]

theorem exec_jal (target : Addr) (s : State) :
    exec (.jal target) s = .next ((s.setReg linkRegister s.linkValue).setPc target) := rfl

/-- The link register is not register 0, so a write to it is never discarded (R15, R16). -/
theorem State.setReg_link (s : State) (v : Word) : s.setReg linkRegister v = { s with regs := s.regs.set 7 v } := rfl

/-- The 13-bit pc plus 1 fits in 16 bits, so the link value never wraps (R102, D19). -/
theorem State.linkValue_toNat (s : State) : s.linkValue.toNat = s.pc.toNat + 1 := by
  have hpc : s.pc.toNat < 8192 := s.pc.isLt
  rw [State.linkValue, BitVec.toNat_add, BitVec.toNat_setWidth, BitVec.toNat_ofNat]
  omega

/-- Settles O12: the mask fixes the opcode of j, its meaning splits on whether it names its own address, and no other
instruction sets the run status. -/
theorem jJumpsOrHaltsOnItself : Obligations.JJumpsOrHaltsOnItself := by
  refine ⟨fun m w h => ⟨targetField w, decode_of_j m (opField_eq_of_mask h), targetField_toNat w⟩, fun s target => ?_,
    fun i s t h => (exec_halted_iff i s t h).1⟩
  by_cases hself : target = s.pc
  · subst hself
    exact ⟨s.halt, exec_j_self s, by simp [SameRegs, SameMemoryCachesEvents]⟩
  · exact ⟨s.setPc target, exec_j_of_ne hself, by simp [SameRegs, SameMemoryCachesEvents, hself]⟩

/-- Settles O14: the opcode and a target are the whole word of a jump, and replacing the registers replaces them in the next
state of j, and all but the link register's value in that of jal. -/
theorem jumpsReadNoRegisterAndHaveNoUnusedBits : Obligations.JumpsReadNoRegisterAndHaveNoUnusedBits := by
  refine ⟨fun m target => ⟨decode_formatJ_j m target, decode_formatJ_jal m target⟩, fun s regs' target => ⟨?_, ?_⟩⟩
  · by_cases hself : target = s.pc
    · subst hself
      exact ⟨_, _, exec_j_self s, exec_j_self { s with regs := regs' }, rfl⟩
    · exact ⟨_, _, exec_j_of_ne hself, exec_j_of_ne (s := { s with regs := regs' }) hself, rfl⟩
  · refine ⟨_, _, exec_jal target s, exec_jal target { s with regs := regs' }, ?_⟩
    rw [State.setReg_link, State.setReg_link]
    rfl

/-- Settles O13: jal is a write of the link register and then of pc. -/
theorem jalLinksAndJumps : Obligations.JalLinksAndJumps := by
  intro s target
  have hlink : linkRegister ≠ zeroRegister := by decide
  refine ⟨_, exec_jal target s, by simp, ?_, fun r hr => by simp [hr], by simp, by simp [SameMemoryCachesEvents]⟩
  simp [hlink, s.linkValue_toNat]

end Sys2Proof.Machine

/-! SUPPORT. The next states of the register-register class and the values its ALU gives, with the proofs of the six statements
of spec/43_register.md. -/

namespace Sys2Proof.Machine

/-! ### The ALU in arithmetic (R113, D9) -/

theorem alu_add_toNat (a b : Word) : (alu .add a b).toNat = (a.toNat + b.toNat) % 65536 := BitVec.toNat_add a b

theorem alu_sub_toNat (a b : Word) : (alu .sub a b).toNat = (((a.toNat : Int) - (b.toNat : Int)) % 65536).toNat := by
  have hb : b.toNat < 65536 := b.isLt
  rw [alu, BitVec.toNat_sub]
  omega

theorem alu_or_toNat (a b : Word) : (alu .or a b).toNat = a.toNat ||| b.toNat := BitVec.toNat_or a b

theorem alu_and_toNat (a b : Word) : (alu .and a b).toNat = a.toNat &&& b.toNat := BitVec.toNat_and a b

theorem alu_sltu_toNat (a b : Word) : (alu .sltu a b).toNat = if a.toNat < b.toNat then 1 else 0 := boolWord_toNat _

theorem alu_slts_toNat (a b : Word) : (alu .slts a b).toNat = if a.toInt < b.toInt then 1 else 0 := boolWord_toNat _

/-- The low 13 bits of a word are its value modulo the memory size (R37). -/
theorem wrapAddr_toNat (v : Word) : (wrapAddr v).toNat = v.toNat % 8192 := BitVec.toNat_setWidth 13 v

/-! ### The next states of the class (R105 to R111) -/

section NextStates

variable (ra rb rc : RegIdx) (s : State)

theorem exec_add : exec (.add ra rb rc) s = .next (s.writeResult rc (alu .add (s.reg ra) (s.reg rb))) := rfl

theorem exec_sub : exec (.sub ra rb rc) s = .next (s.writeResult rc (alu .sub (s.reg ra) (s.reg rb))) := rfl

theorem exec_or : exec (.or ra rb rc) s = .next (s.writeResult rc (alu .or (s.reg ra) (s.reg rb))) := rfl

theorem exec_and : exec (.and ra rb rc) s = .next (s.writeResult rc (alu .and (s.reg ra) (s.reg rb))) := rfl

theorem exec_slt : exec (.slt ra rb rc) s =
    .next (s.writeResult (sltDestination s.params.roleMap ra rc)
      (alu (sltAlu s.params.sltCompare) (s.reg (sltOperands s.params.roleMap ra rb rc).1)
        (s.reg (sltOperands s.params.roleMap ra rb rc).2))) := rfl

theorem exec_jr : exec (.jr ra rb rc) s = .next (s.setPc (wrapAddr (s.reg (jrSource s.params.roleMap ra rb)))) := rfl

end NextStates

/-- An instruction whose next state is a result written to `d` writes that result's value to `d` and does nothing else. -/
theorem exec_writesRegister {i : Instr} {s : State} {d : RegIdx} {v : Word} {n : Nat}
    (hexec : exec i s = .next (s.writeResult d v)) (hv : v.toNat = n) :
    ∃ t, exec i s = .next t ∧ WritesRegister d n s t :=
  ⟨s.writeResult d v, hexec, writeResult_writesRegister s d v n hv⟩

/-- The frame of setting pc, which is also that of an advance (R89): everything else is as before. -/
theorem setPc_frame (s : State) (a : Addr) :
    SameRegs s (s.setPc a) ∧ (s.setPc a).halted = s.halted ∧ SameMemoryCachesEvents s (s.setPc a) := by
  simp [SameRegs, SameMemoryCachesEvents]

/-! ### The statements -/

/-- Settles O9: each role map names the destination and the operands, and each comparison the ALU operation that decides it. -/
theorem sltWritesTheComparison : Obligations.SltWritesTheComparison := by
  intro s ra rb rc
  refine ⟨_, exec_slt ra rb rc s, fun hrole hcmp => ?_, fun hrole hcmp => ?_, fun hrole hcmp => ?_, fun hrole hcmp => ?_⟩
  all_goals rw [hrole, hcmp]
  · exact writeResult_writesRegister s ra _ _ (alu_sltu_toNat (s.reg rb) (s.reg rc))
  · exact writeResult_writesRegister s ra _ _ (alu_slts_toNat (s.reg rb) (s.reg rc))
  · exact writeResult_writesRegister s rc _ _ (alu_sltu_toNat (s.reg ra) (s.reg rb))
  · exact writeResult_writesRegister s rc _ _ (alu_slts_toNat (s.reg ra) (s.reg rb))

/-- Settles O10: jr sets pc to the wrapped value of the register that the role map names, and only pc. -/
theorem jrJumpsToTheRegisterModulo8192 : Obligations.JrJumpsToTheRegisterModulo8192 := by
  intro s ra rb rc
  refine ⟨_, exec_jr ra rb rc s, fun hrole => ?_, fun hrole => ?_, setPc_frame s _⟩
  all_goals rw [hrole, State.setPc_pc, wrapAddr_toNat, jrSource]

/-- Settles O6: add is a result write of the ALU's sum. -/
theorem addWritesTheSumModulo65536 : Obligations.AddWritesTheSumModulo65536 := fun s ra rb rc =>
  exec_writesRegister (exec_add ra rb rc s) (alu_add_toNat _ _)

/-- Settles O7: sub is a result write of the ALU's difference. -/
theorem subWritesTheDifferenceModulo65536 : Obligations.SubWritesTheDifferenceModulo65536 := fun s ra rb rc =>
  exec_writesRegister (exec_sub ra rb rc s) (alu_sub_toNat _ _)

/-- Settles O8: or and and are result writes of the ALU's bitwise results. -/
theorem orAndWriteTheBitwiseResult : Obligations.OrAndWriteTheBitwiseResult := fun s ra rb rc =>
  ⟨exec_writesRegister (exec_or ra rb rc s) (alu_or_toNat _ _), exec_writesRegister (exec_and ra rb rc s) (alu_and_toNat _ _)⟩

/-- Settles O11: the next state of each of the five reserved rows is an advance. -/
theorem reservedFunctionCodesOnlyAdvance : Obligations.ReservedFunctionCodesOnlyAdvance := by
  intro s i hi
  have hexec : exec i s = .next s.advance := by
    rcases hi with ⟨_, rfl⟩ | ⟨_, _, rfl⟩ | ⟨_, rfl⟩ | ⟨_, _, rfl⟩ | ⟨_, _, rfl⟩ <;> rfl
  exact ⟨s.advance, hexec, advanced_of_pc s s.advance s.advance_pc, setPc_frame s (s.pc + 1#13)⟩

end Sys2Proof.Machine

/-! SUPPORT. The arithmetic of the sign-extended immediate and the next states of the immediate class, with the proofs of the
seven statements of spec/44_immediate.md. -/

namespace Sys2Proof.Machine

/-! ### The sign-extended immediate in arithmetic (R52, R120, R121) -/

/-- A word plus the sign-extended immediate is their sum modulo 65536, the non-negative remainder (R118, D9). -/
theorem add_sext16_toNat (x : Word) (imm : Imm7) :
    ((x + sext16 imm).toNat : Int) = ((x.toNat : Int) + imm.toInt) % 65536 := by
  have himm := sext16_toNat imm
  rw [BitVec.toNat_add]
  omega

/-- Wrapping the 16-bit sum loses nothing modulo 8192, which divides 65536 (R121, D10). -/
theorem State.effectiveAddress_toNat (s : State) (ra : RegIdx) (imm : Imm7) :
    ((s.effectiveAddress ra imm).toNat : Int) = (((s.reg ra).toNat : Int) + imm.toInt) % 8192 := by
  have hsum := add_sext16_toNat (s.reg ra) imm
  rw [State.effectiveAddress, wrapAddr_toNat]
  omega

theorem State.branchTarget_toNat (s : State) (imm : Imm7) :
    ((s.branchTarget imm).toNat : Int) = ((s.pc.toNat : Int) + 1 + imm.toInt) % 8192 := by
  have himm := sext16_toNat imm
  rw [State.branchTarget, BitVec.toNat_add, BitVec.toNat_add, wrapAddr_toNat, BitVec.toNat_ofNat]
  omega

/-! ### The comparisons of slti (R116, D7, D30) -/

section Slti

variable (x : Word) (imm : Imm7)

theorem sltiHolds_signed16 : sltiHolds .signed16 x imm = decide (x.toInt < imm.toInt) := rfl

theorem sltiHolds_zextRegVsSextImm :
    sltiHolds .zextRegVsSextImm x imm = decide ((x.toNat : Int) < imm.toInt) := rfl

theorem sltiHolds_unsigned16 :
    sltiHolds .unsigned16 x imm = decide ((x.toNat : Int) < imm.toInt % 65536) := by
  rw [← sext16_toNat, sltiHolds]
  simp only [Int.ofNat_lt]

/-- Below 32768 and for a non-negative immediate, every reading of the two operands gives their own values. -/
theorem sltiHolds_of_nonneg (c : SltiCompare) (hx : x.toNat < 32768) (himm : 0 ≤ imm.toInt) :
    sltiHolds c x imm = decide ((x.toNat : Int) < imm.toInt) := by
  cases c with
  | signed16 => rw [sltiHolds_signed16, BitVec.toInt_eq_toNat_of_lt (by omega)]
  | zextRegVsSextImm => rw [sltiHolds_zextRegVsSextImm]
  | unsigned16 =>
    have hlt : imm.toInt < 64 := BitVec.toInt_lt
    rw [sltiHolds_unsigned16, Int.emod_eq_of_lt himm (by omega)]

end Slti

/-! ### The next states of the class (R116 to R120) -/

section NextStates

variable (ra rb : RegIdx) (imm : Imm7) (s : State)

theorem exec_addi : exec (.addi ra rb imm) s = .next (s.writeResult rb (s.reg ra + sext16 imm)) := rfl

theorem exec_slti : exec (.slti ra rb imm) s =
    .next (s.writeResult rb (boolWord (sltiHolds s.params.sltiCompare (s.reg ra) imm))) := rfl

theorem exec_lw : exec (.lw ra rb imm) s =
    .next ((s.loadPath (s.effectiveAddress ra imm)).writeResult rb (s.readWord (s.effectiveAddress ra imm))) := rfl

theorem exec_sw : exec (.sw ra rb imm) s =
    .next ((s.writeWord (s.effectiveAddress ra imm) (s.reg rb)).storePath (s.effectiveAddress ra imm)).advance := rfl

theorem exec_jeq_of_eq (h : s.reg ra = s.reg rb) : exec (.jeq ra rb imm) s = .next (s.setPc (s.branchTarget imm)) := by
  rw [exec_jeq, if_pos h]

theorem exec_jeq_of_ne (h : s.reg ra ≠ s.reg rb) : exec (.jeq ra rb imm) s = .next s.advance := by
  rw [exec_jeq, if_neg h, State.advance]

end NextStates

/-! ### What loads and stores alone reach (R122) -/

/-- The state with all that loads and stores reach replaced: memory, caches and event stream. -/
def State.replaceMemory (s : State) (mem : Memory) (l1 : Level) (l2 : Option Level) (events : List Event) : State :=
  { s with mem := mem, l1 := l1, l2 := l2, events := events }

section ReplaceMemory

variable (mem : Memory) (l1 : Level) (l2 : Option Level) (events : List Event)

theorem State.replaceMemory_self (s : State) : s.replaceMemory s.mem s.l1 s.l2 s.events = s := rfl

theorem State.setReg_replaceMemory (s : State) (d : RegIdx) (v : Word) :
    (s.replaceMemory mem l1 l2 events).setReg d v = (s.setReg d v).replaceMemory mem l1 l2 events := by
  unfold State.setReg
  split <;> rfl

theorem State.writeResult_replaceMemory (s : State) (d : RegIdx) (v : Word) :
    (s.replaceMemory mem l1 l2 events).writeResult d v = (s.writeResult d v).replaceMemory mem l1 l2 events :=
  congrArg State.advance (s.setReg_replaceMemory mem l1 l2 events d v)

/-- An instruction that is no load and no store gives the same next state whatever memory, caches and events hold. -/
theorem exec_replaceMemory (i : Instr) (s t : State) (hi : isLoadOrStore i = false) (h : exec i s = .next t) :
    exec i (s.replaceMemory mem l1 l2 events) = .next (t.replaceMemory mem l1 l2 events) := by
  cases i with
  | lw ra rb imm | sw ra rb imm => cases hi
  | add ra rb rc | sub ra rb rc | or ra rb rc | and ra rb rc | slt ra rb rc | addi ra rb imm | slti ra rb imm =>
    cases h
    exact congrArg _ (s.writeResult_replaceMemory mem l1 l2 events _ _)
  | jal target =>
    cases h
    exact congrArg _ (congrArg (fun u : State => u.setPc target) (s.setReg_replaceMemory mem l1 l2 events _ _))
  | j target =>
    rw [exec_j] at h ⊢
    cases h
    exact congrArg _ (apply_ite (State.replaceMemory · mem l1 l2 events) (target = s.pc) s.halt (s.setPc target)).symm
  | jeq ra rb imm =>
    rw [exec_jeq] at h ⊢
    cases h
    rfl
  | jr _ _ _ | reserved0101 _ | reserved011x _ _ | reserved1001 _ | reserved101x _ _ | reserved11xx _ _ =>
    cases h
    rfl

end ReplaceMemory

/-- Such an instruction leaves memory, caches and events as they are: putting back in them what they held before changes nothing,
so they held it after as well. -/
theorem exec_memory_of_not_loadOrStore (i : Instr) (s t : State) (hi : isLoadOrStore i = false) (h : exec i s = .next t) :
    t.mem = s.mem ∧ t.l1 = s.l1 ∧ t.l2 = s.l2 ∧ t.events = s.events := by
  have hput := exec_replaceMemory s.mem s.l1 s.l2 s.events i s t hi h
  rw [s.replaceMemory_self, h, Host.Outcome.next.injEq] at hput
  rw [hput]
  exact ⟨rfl, rfl, rfl, rfl⟩

/-! ### The class as a whole (R56, R122) -/

theorem isImmediate_immInstr (op : ImmOp) (ra rb : RegIdx) (imm : Imm7) : isImmediate (op.instr ra rb imm) = true := by
  cases op <;> rfl

/-- Every word of the five opcodes decodes to an instruction of the class, under both pairings (R56). -/
theorem isImmediate_decode (m : ImmOpcodeMap) (w : Word) (h : opField w ∉ [0b000#3, 0b010#3, 0b011#3]) :
    isImmediate (decode m w) = true := by
  simp only [List.mem_cons, List.not_mem_nil, or_false, not_or] at h
  obtain ⟨hr, hj, hjal⟩ := h
  obtain ⟨op, hop⟩ := exists_immOpcode m (opField w) hr hj hjal
  rw [decode_of_immOpcode m op hop, isImmediate_immInstr]

/-- Of the immediate class only a taken jeq does not advance (R89). -/
theorem exec_immediate_advanced (i : Instr) (s : State) (hi : isImmediate i = true) :
    ∃ t, exec i s = .next t ∧ (Advanced s t ∨ ∃ ra rb imm, i = .jeq ra rb imm ∧ s.reg ra = s.reg rb) := by
  cases i with
  | addi ra rb imm => exact ⟨_, exec_addi ra rb imm s, .inl (advanced_of_pc _ _ (by simp))⟩
  | slti ra rb imm => exact ⟨_, exec_slti ra rb imm s, .inl (advanced_of_pc _ _ (by simp))⟩
  | lw ra rb imm => exact ⟨_, exec_lw ra rb imm s, .inl (advanced_of_pc _ _ (by simp))⟩
  | sw ra rb imm => exact ⟨_, exec_sw ra rb imm s, .inl (advanced_of_pc _ _ (by simp))⟩
  | jeq ra rb imm =>
    by_cases h : s.reg ra = s.reg rb
    · exact ⟨_, exec_jeq_of_eq ra rb imm s h, .inr ⟨ra, rb, imm, rfl, h⟩⟩
    · exact ⟨_, exec_jeq_of_ne ra rb imm s h, .inl (advanced_of_pc _ _ s.advance_pc)⟩
  | _ => cases hi

/-! ### The statements -/

/-- Settles O16: each parameter names the reading, and slti is a result write of what it decides. -/
theorem sltiWritesTheComparison : Obligations.SltiWritesTheComparison := by
  intro s ra rb imm
  refine ⟨_, exec_slti ra rb imm s, fun hcmp => ?_, fun hcmp => ?_, fun hcmp => ?_⟩
  all_goals
    rw [hcmp]
    refine writeResult_writesRegister s rb _ _ ?_
  · rw [sltiHolds_signed16, boolWord_toNat]
  · rw [sltiHolds_zextRegVsSextImm, boolWord_toNat]
  · rw [sltiHolds_unsigned16, boolWord_toNat]

/-- Settles O17: on such operands each of the three decides the one comparison of the operands' own values. -/
theorem sltiComparisonsAgreeOnNonnegativeOperands : Obligations.SltiComparisonsAgreeOnNonnegativeOperands := by
  intro x imm c d hx himm
  rw [sltiHolds_of_nonneg x imm c hx himm, sltiHolds_of_nonneg x imm d hx himm]

/-- Settles O18: the load path touches nothing but caches and events, and the result write after it nothing but rb and pc. -/
theorem lwLoadsTheMemoryWord : Obligations.LwLoadsTheMemoryWord := by
  intro s ra rb imm
  refine ⟨_, exec_lw ra rb imm s, s.effectiveAddress_toNat ra imm, exec_lw_regWritten ra rb imm s _ rfl,
    advanced_of_pc _ _ ?_, ?_⟩
  · simp
  · simp

/-- Settles O19: the store path touches nothing but caches and events, and is that of the state before the store. -/
theorem swStoresTheRegister : Obligations.SwStoresTheRegister := by
  intro s ra rb imm hm
  have hexec := exec_sw ra rb imm s
  obtain ⟨hpc, hword, hparams⟩ := exec_sw_fetch s _ ra rb imm hm hexec
  obtain ⟨hl1, hl2, hevents, -⟩ := exec_sw_sameCaches ra rb imm s _ hexec
  refine ⟨_, hexec, s.effectiveAddress_toNat ra imm, hword, fun a ha => ?_, fun r => ?_, advanced_of_pc _ _ hpc, ?_, hparams,
    hl1, hl2, hevents⟩
  · exact exec_readWord_of_no_store _ s _ a hexec fun hstore => ha (Option.some.inj hstore).symm
  · simp
  · simp

/-- Settles O20: taken or not, jeq sets pc and only pc. -/
theorem jeqBranchesOnEquality : Obligations.JeqBranchesOnEquality := by
  intro s ra rb imm
  by_cases h : s.reg ra = s.reg rb
  · exact ⟨_, exec_jeq_of_eq ra rb imm s h, fun _ => s.branchTarget_toNat imm, fun hne => absurd h hne, setPc_frame s _⟩
  · exact ⟨_, exec_jeq_of_ne ra rb imm s h, fun heq => absurd heq h, fun _ => advanced_of_pc _ _ s.advance_pc,
      setPc_frame s (s.pc + 1#13)⟩

/-- Settles O21: no other instruction depends on what loads and stores reach, so none changes it; the class is that of the five
opcodes, and no word loses a bit. -/
theorem onlyLoadsAndStoresAccessMemoryAndCaches : Obligations.OnlyLoadsAndStoresAccessMemoryAndCaches := by
  refine ⟨fun i s hi => ?_, exec_immediate_advanced, fun m w h => ⟨isImmediate_decode m w h, encodeOfDecodeIsTheWord m w⟩⟩
  obtain ⟨t, ht⟩ := exec_exists_next i s
  obtain ⟨hmem, hl1, hl2, hevents⟩ := exec_memory_of_not_loadOrStore i s t hi ht
  exact ⟨t, ht, hmem, hl1, hl2, hevents, fun mem l1 l2 events => exec_replaceMemory mem l1 l2 events i s t hi ht⟩

/-- Settles O15: addi is a result write of the sum with the sign-extended immediate. -/
theorem addiAddsTheSignedImmediate : Obligations.AddiAddsTheSignedImmediate := fun s ra rb imm =>
  exec_writesRegister (exec_addi ra rb imm s) (by rw [← add_sext16_toNat, Int.toNat_natCast])

end Sys2Proof.Machine

/-! SUPPORT. The launched state and its memory, and the zero word as a no-op, with the proofs of the six statements of
spec/70_reset_and_hazards.md. -/

namespace Sys2Proof.Machine

/-! ### The launched state (R141 to R147) -/

/-- The state that a launch gives for valid arguments. -/
def launchedState (c : LaunchConfig) (image : List Word) : State where
  regs   := c.regReset
  pc     := c.pcReset
  mem    := imageCells 0 image
  l1     := Level.reset c.l1
  l2     := c.l2.map Level.reset
  halted := false
  events := []
  params := c.params

theorem launch_eq_some_iff (c : LaunchConfig) (image : List Word) (s : State) :
    State.launch c image = some s ↔ c.valid = true ∧ image.length ≤ memSize ∧ launchedState c image = s := by
  simp [State.launch, imageFits, launchedState, and_assoc]

/-- Reset is a launch, so what holds after every launch holds at reset (R147). -/
theorem launch_defaultLaunch : State.launch defaultLaunch [] = some State.reset := rfl

theorem Level.wf_reset (p : Params) (d : Descriptor) (h : d.valid = true) : (Level.reset d).wf p := by
  refine ⟨h, List.length_replicate, fun r _ => ?_⟩
  rw [Level.row_reset]
  exact ⟨Nat.zero_le _, by simp, fun _ => List.nodup_nil⟩

/-- The levels of a valid configuration are well formed, and there is no event yet. -/
theorem launchedState_cachesWf (c : LaunchConfig) (image : List Word) (h : c.valid = true) :
    (launchedState c image).CachesWf := by
  obtain ⟨hl1, hl2, -⟩ := (launchConfig_valid_iff c).1 h
  refine ⟨Level.wf_reset _ _ hl1, fun l hl => ?_, by simp [launchedState]⟩
  obtain ⟨d, hd, rfl⟩ : ∃ d, c.l2 = some d ∧ Level.reset d = l := by simpa [launchedState] using hl
  exact Level.wf_reset _ d (hl2 d hd)

/-- Settles O40: the checks of a launch give the clauses on register 0, the image and the descriptors, and a machine that starts
below 8191 may run. -/
theorem everyLaunchMeetsTheInvariant : Obligations.EveryLaunchMeetsTheInvariant := by
  intro c image s h
  obtain ⟨hvalid, himage, rfl⟩ := (launch_eq_some_iff c image s).1 h
  obtain ⟨-, -, hpc, hzero⟩ := (launchConfig_valid_iff c).1 hvalid
  refine (State.inv_iff _).2 ⟨hzero, imageCells_wf image himage, launchedState_cachesWf c image hvalid, fun hlast => ?_⟩
  have hpcReset : c.pcReset = lastAddress := hlast
  simp [hpcReset] at hpc

/-- Settles O39: reset is a launch. -/
theorem resetMeetsTheInvariant : Obligations.ResetMeetsTheInvariant :=
  everyLaunchMeetsTheInvariant defaultLaunch [] State.reset launch_defaultLaunch

theorem launch_rows_empty (c : LaunchConfig) (image : List Word) (s : State) (h : State.launch c image = some s) :
    (∀ r, s.l1.row r = []) ∧ (∀ l, s.l2 = some l → ∀ r, l.row r = []) ∧ s.halted = false ∧ s.events = [] := by
  obtain ⟨-, -, rfl⟩ := (launch_eq_some_iff c image s).1 h
  refine ⟨Level.row_reset c.l1, fun l hl => ?_, rfl, rfl⟩
  obtain ⟨d, -, rfl⟩ := Option.map_eq_some_iff.1 hl
  exact Level.row_reset d

/-- Settles O49: every level of a launch is a reset level, and reset is a launch. -/
theorem launchLeavesEmptyRowsAndARunningMachine : Obligations.LaunchLeavesEmptyRowsAndARunningMachine :=
  ⟨launch_rows_empty, launch_rows_empty defaultLaunch [] State.reset launch_defaultLaunch⟩

/-! ### The memory of a launch (R27, R143) -/

theorem Memory.readCell_of_absent (m : Memory) (k : Nat) (h : ∀ c ∈ m, c.1 ≠ k) : m.readCell k = unwrittenWord := by
  induction m with
  | nil => rfl
  | cons c m ih =>
    obtain ⟨hc, hm⟩ := List.forall_mem_cons.1 h
    rw [Memory.readCell, if_neg hc, ih hm]

/-- The first word of an image is read at its address although a zero word has no cell, for no later cell has that address. -/
theorem readCell_imageCells_cons (a : Nat) (w : Word) (ws : List Word) (k : Nat) :
    (imageCells a (w :: ws)).readCell k = if a = k then w else (imageCells (a + 1) ws).readCell k := by
  by_cases hw : w = unwrittenWord
  · rw [imageCells, if_pos hw]
    split
    case isTrue hk =>
      rw [hw]
      refine Memory.readCell_of_absent _ k fun c hc => ?_
      obtain ⟨hlow, -, -⟩ := imageCells_bounds ws (a + 1) c hc
      omega
    case isFalse => rfl
  · rw [imageCells, if_neg hw, Memory.readCell]

theorem readCell_imageCells (a : Nat) (ws : List Word) (k : Nat) :
    (imageCells a ws).readCell (a + k) = ws.getD k unwrittenWord := by
  induction ws generalizing a k with
  | nil => rfl
  | cons w ws ih =>
    rw [readCell_imageCells_cons]
    cases k with
    | zero => simp
    | succ k =>
      have hshift : a + (k + 1) = a + 1 + k := by omega
      rw [if_neg (by omega), hshift, ih, List.getD_cons_succ]

/-- Settles O50: the memory is that of the image, and every other field is a launch argument. -/
theorem launchLoadsTheImageFollowedByZeros : Obligations.LaunchLoadsTheImageFollowedByZeros := by
  intro c image s h
  obtain ⟨-, -, rfl⟩ := (launch_eq_some_iff c image s).1 h
  refine ⟨fun a => ?_, rfl, fun _ => rfl, rfl, ?_, rfl⟩
  · have hread := readCell_imageCells 0 image a.toNat
    rwa [Nat.zero_add] at hread
  · change (c.l2.map Level.reset).map (fun l => l.desc) = c.l2
    cases c.l2 <;> rfl

/-- Settles O51: reset is a launch, whose memory, registers and configuration are those of its arguments. -/
theorem resetIsTheDefaultLaunch : Obligations.ResetIsTheDefaultLaunch := by
  obtain ⟨hmem, hpc, hreg, hl1, -, hparams⟩ :=
    launchLoadsTheImageFollowedByZeros defaultLaunch [] State.reset launch_defaultLaunch
  refine ⟨launch_defaultLaunch, hpc, fun r => ?_, hmem, hparams, hl1, rfl⟩
  rw [hreg]
  exact Vector.getElem_replicate r.isLt

/-! ### Zero words (R59, R92, R148) -/

/-- The word 0 is `add x0, x0, x0` under either pairing (R59, D4). -/
theorem decode_zero (m : ImmOpcodeMap) : decode m 0#16 = .add zeroRegister zeroRegister zeroRegister := by
  cases m <;> decide

/-- A result for register 0 is discarded (R15). -/
theorem exec_add_discarded (ra rb : RegIdx) (s : State) : exec (.add ra rb zeroRegister) s = .next s.advance := by
  rw [exec_add, State.writeResult, State.setReg_zero]

/-- A running machine at a zero word only advances, and ends its run where that leads to 8191. -/
theorem step_of_zero_word (s : State) (hinv : s.Inv) (hrun : s.halted = false) (hword : s.readWord s.pc = 0#16) :
    step s = .next s.advance.stopAtLast := by
  obtain ⟨hzero, -⟩ := s.inv_iff.1 hinv
  have hexec : exec s.currentInstr s = .next s.advance := by
    rw [State.currentInstr, State.fetch, hword, decode_zero, exec_add_discarded]
  rw [step_of_exec s s.advance (s.configValid_of_inv hinv) hrun hexec, State.retire, s.advance.forceZero_of_zero hzero]

theorem State.pc_lt_of_running (s : State) (hinv : s.Inv) (hrun : s.halted = false) : s.pc.toNat < 8191 := by
  obtain ⟨-, -, -, hlast⟩ := s.inv_iff.1 hinv
  have hpc : s.pc ≠ lastAddress := fun hpc => by simp [hlast hpc] at hrun
  bv_omega

theorem State.advance_pc_toNat (s : State) (hpc : s.pc.toNat < 8191) : s.advance.pc.toNat = s.pc.toNat + 1 := by
  rw [State.advance_pc]
  bv_omega

/-- Every word from pc up to address 8190 is 0. -/
def State.ZerosAhead (s : State) : Prop :=
  ∀ a : Addr, s.pc.toNat ≤ a.toNat → a.toNat < 8191 → s.readWord a = 0#16

theorem State.ZerosAhead.advance {s : State} (h : s.ZerosAhead) (hpc : s.pc.toNat < 8191) : s.advance.ZerosAhead := by
  intro a hlow hhigh
  rw [s.advance_pc_toNat hpc] at hlow
  exact h a (by omega) hhigh

/-- One step per zero word, by recursion on their number: the last step ends the run, and every other leads to a running machine
that again has zero words ahead. -/
theorem runSteps_of_zerosAhead (n : Nat) (s : State) (hinv : s.Inv) (hrun : s.halted = false) (hzeros : s.ZerosAhead)
    (hn : s.pc.toNat + (n + 1) = 8191) :
    runSteps (n + 1) s = .next { s with pc := lastAddress, halted := true } := by
  have hpc := s.pc_lt_of_running hinv hrun
  have hnext := s.advance_pc_toNat hpc
  have hstep := step_of_zero_word s hinv hrun (hzeros s.pc (le_refl _) hpc)
  cases n with
  | zero =>
    have hlast : s.advance.pc = lastAddress := by bv_omega
    rw [State.stopAtLast, if_pos hlast] at hstep
    simp only [runSteps, hstep, ← hlast]
    rfl
  | succ n =>
    have hne : s.advance.pc ≠ lastAddress := by bv_omega
    rw [State.stopAtLast, if_neg hne] at hstep
    have hinv' : s.advance.Inv := stepKeepsTheInvariant s s.advance hinv hstep
    rw [runSteps, hstep]
    exact runSteps_of_zerosAhead n s.advance hinv' hrun (hzeros.advance hpc) (by omega)

/-- Settles O48: the invariant keeps a running machine below 8191, so there is a zero word for each of the steps. -/
theorem zeroWordsRunToTheLastAddress : Obligations.ZeroWordsRunToTheLastAddress := by
  intro s hinv hrun hzeros
  have hpc := s.pc_lt_of_running hinv hrun
  obtain ⟨n, hn⟩ : ∃ n, 8191 - s.pc.toNat = n + 1 := Nat.exists_eq_succ_of_ne_zero (by omega)
  rw [hn]
  exact runSteps_of_zerosAhead n s hinv hrun hzeros (by omega)

end Sys2Proof.Machine
